-- ==== Sys2Proof/Word.lean ====
section
/-! DEFINITION. The word types of the block: bytes, nibbles and one-bit line levels. -/

namespace Sys2Proof

/-- `Address` and `DataByte`: 8 bits (00_scope.md R6). -/
abbrev Byte := BitVec 8

/-- One serialised unit: 4 bits (00_scope.md R6). -/
abbrev Nibble := BitVec 4

/-- The level of one line: a data line's bit, or a control line's logical level with `A` as 1 and `N` as 0
(30_encoding.md R57). -/
abbrev Level := Bool

/-- `A`, asserted (00_scope.md R9(f)). -/
abbrev Level.A : Level := true

/-- `N`, negated (00_scope.md R9(f)). -/
abbrev Level.N : Level := false

end Sys2Proof
end

