-- ==== Sys2Proof/Syntax.lean ====
section
/-! DEFINITION. The lines, the cycle kinds, the 26 operations and the request that carries one (30_encoding.md). -/

namespace Sys2Proof

/-- The eight output lines (20_memory.md R32). -/
inductive OutLine where
  | dataOut0 | dataOut1 | dataOut2 | dataOut3 | clk1 | clk2 | sync | chipMatrixEnable
  deriving DecidableEq, Repr

/-- The four input lines (20_memory.md R32). -/
inductive InLine where
  | dataIn0 | dataIn1 | dataIn2 | dataIn3
  deriving DecidableEq, Repr

/-- One of the twelve named lines, each with its direction (20_memory.md R32). -/
inductive Line where
  | out (l : OutLine)
  | inp (l : InLine)
  deriving DecidableEq, Repr

/-- One value for each output line. -/
structure OutLines (α : Type) where
  dataOut0 : α
  dataOut1 : α
  dataOut2 : α
  dataOut3 : α
  clk1 : α
  clk2 : α
  sync : α
  chipMatrixEnable : α
  deriving DecidableEq, Repr

/-- One value for each input line. -/
structure InLines (α : Type) where
  dataIn0 : α
  dataIn1 : α
  dataIn2 : α
  dataIn3 : α
  deriving DecidableEq, Repr

/-- `PhaseIndex`, 0 to 6 (30_encoding.md R56). -/
abbrev PhaseIndex := Fin 7

/-- `CycleKind`, the nine kinds of sub-cycle (30_encoding.md R55). -/
inductive CycleKind where
  | init | addrLow | addrHigh | chipSelect | dataHigh | dataLow | trail1 | trail2 | trail3
  deriving DecidableEq, Repr

/-- What a hook does with the nibble it samples: drop it, assign it as the high nibble of `x[result]`
(43_cycle_engine.md R114) or OR it into `x[result]` (R115). -/
inductive SampleUse where
  | discard | resultHigh | resultLow
  deriving DecidableEq, Repr

/-- A register update a hook may make (30_encoding.md R64). -/
inductive RegUpdate where
  | cs (n : Nat)
  | addr (a : Byte)
  | result (b : Byte)
  deriving DecidableEq, Repr

/-- One action of a hook: a port primitive or a register update (30_encoding.md R64). A wrong-direction line
name cannot be written here (30_encoding.md R59(e)). -/
inductive HookAction where
  | setLine (name : OutLine) (level : Level)
  | readLine (name : InLine)
  | wrNib (v : Nat)
  | rdNib (use : SampleUse)
  | update (u : RegUpdate)
  deriving DecidableEq, Repr

/-- The hook operand: a partial map from phase index to a sequence of actions (30_encoding.md R64), as a list of
entries. The index is a plain number here: that it is below 7 and stands once is a check of `WellFormed.lean`. -/
abbrev Hooks := List (Nat × List HookAction)

/-- The 26 operations of the opcode table (30_encoding.md R58), one constructor for each row. -/
inductive Instr where
  | waitns (d : Nat)
  | setline (name : Line) (level : Level)
  | readline (name : Line)
  | wrnib (v : Nat)
  | rdnib
  | imsuppress
  | imrestore (token : Nat)
  | phase0 | phase1 | phase2 | phase3 | phase4 | phase5 | phase6
  | subcyc (hooks : Hooks)
  | init | addrlow | addrhigh | chipsel | datahigh | datalow | trail1 | trail2 | trail3
  | readword (cs : Nat) (addr : Byte)
  | scan (cs : Nat)
  deriving DecidableEq, Repr

/-- The operand ports (30_encoding.md R63). `SETLINE` and `READLINE` have a line-name port each; either port
carries any of the twelve names. The defaults are the operand words of zeros. DESIGN CHOICE (log 11). -/
structure Ports where
  d : Nat := 0
  outName : Line := .out .dataOut0
  inName : Line := .inp .dataIn0
  level : Level := Level.N
  v : Nat := 0
  token : Nat := 0
  hooks : Hooks := []
  cs : Nat := 0
  addr : Byte := 0
  deriving DecidableEq, Repr

/-- A request: one Format U byte and the operands on the ports (30_encoding.md R51, R63). -/
structure Request where
  op : Byte
  ports : Ports := {}
  deriving DecidableEq, Repr

end Sys2Proof
end

