-- ==== Sys2Proof/WellFormed.lean ====
section
/-! DEFINITION. Which operations the spec defines: the operand values that 30_encoding.md R59 has a model refuse. -/

namespace Sys2Proof

/-- Why an operation is not one of the spec's (30_encoding.md R59(b), R59(e), R64). -/
inductive Defect where
  /-- `SETLINE` on an input line (R59(e)). -/
  | notAnOutputLine (l : InLine)
  /-- `READLINE` on an output line (R59(e)). -/
  | notAnInputLine (l : OutLine)
  /-- A hook at an index that names no phase (R59(b)). -/
  | noSuchPhase (i : Nat)
  /-- Two hooks at one index: no partial map (R64). -/
  | repeatedHook (i : Nat)
  deriving DecidableEq, Repr

/-- The first defect of a hook operand: an index of 7 or more, or an index that stands again (R59(b), R64). -/
def hooksDefect : Hooks → Option Defect
  | [] => none
  | h :: rest =>
    if 7 ≤ h.1 then some (.noSuchPhase h.1)
    else if h.1 ∈ rest.map Prod.fst then some (.repeatedHook h.1)
    else hooksDefect rest

/-- The defect of an operation, if it has one. -/
def Instr.defect : Instr → Option Defect
  | .setline (.inp l) _ => some (.notAnOutputLine l)
  | .setline (.out _) _ => none
  | .readline (.out l) => some (.notAnInputLine l)
  | .readline (.inp _) => none
  | .subcyc hooks => hooksDefect hooks
  | .waitns _ | .wrnib _ | .rdnib | .imsuppress | .imrestore _ => none
  | .phase0 | .phase1 | .phase2 | .phase3 | .phase4 | .phase5 | .phase6 => none
  | .init | .addrlow | .addrhigh | .chipsel | .datahigh | .datalow => none
  | .trail1 | .trail2 | .trail3 | .readword _ _ | .scan _ => none

/-- A well-formed operation has no defect. -/
abbrev Instr.WellFormed (i : Instr) : Prop := i.defect = none

end Sys2Proof
end

