-- ==== Sys2Proof/Decode.lean ====
section
/-! DEFINITION. From a request to an operation and back: Format U (30_encoding.md R51) and the operand ports (R63).
A reserved byte and an operand the spec does not define are rejected by name (R59). -/

namespace Sys2Proof

/-- Why a request is rejected. -/
inductive DecodeError where
  /-- The operation byte is reserved (30_encoding.md R59(a)). -/
  | reserved (op : Byte)
  /-- An operand is one the spec does not define (R59(b), R59(e)). -/
  | illFormed (d : Defect)
  deriving DecidableEq, Repr

/-- `op[7:4]` (30_encoding.md R51). -/
def familyOf (op : Byte) : Nat := op.toNat / 16

/-- `op[3:0]` (30_encoding.md R51). -/
def memberOf (op : Byte) : Nat := op.toNat % 16

/-- The numeric code of a kind (30_encoding.md R55). -/
def kindCode : CycleKind → Nat
  | .init => 0
  | .addrLow => 1
  | .addrHigh => 2
  | .chipSelect => 3
  | .dataHigh => 4
  | .dataLow => 5
  | .trail1 => 6
  | .trail2 => 7
  | .trail3 => 8

/-- The kind a code names; 9 to 15 are reserved (30_encoding.md R55). -/
def kindOfCode : Nat → Option CycleKind
  | 0 => some .init
  | 1 => some .addrLow
  | 2 => some .addrHigh
  | 3 => some .chipSelect
  | 4 => some .dataHigh
  | 5 => some .dataLow
  | 6 => some .trail1
  | 7 => some .trail2
  | 8 => some .trail3
  | _ => none

/-- The cycle step of a kind: a member of family 2 (30_encoding.md R51). -/
def stepOfKind : CycleKind → Instr
  | .init => .init
  | .addrLow => .addrlow
  | .addrHigh => .addrhigh
  | .chipSelect => .chipsel
  | .dataHigh => .datahigh
  | .dataLow => .datalow
  | .trail1 => .trail1
  | .trail2 => .trail2
  | .trail3 => .trail3

/-- Family 0, the leaf primitives (30_encoding.md R51); their operands come from the ports (R58, R63). -/
def decodeLeaf (p : Ports) : Nat → Option Instr
  | 0 => some (.waitns p.d)
  | 1 => some (.setline p.outName p.level)
  | 2 => some (.readline p.inName)
  | 3 => some (.wrnib p.v)
  | 4 => some .rdnib
  | 5 => some .imsuppress
  | 6 => some (.imrestore p.token)
  | _ => none

/-- Family 1, the phase sequencer (30_encoding.md R51); 7 is reserved. -/
def decodePhase (p : Ports) : Nat → Option Instr
  | 0 => some .phase0
  | 1 => some .phase1
  | 2 => some .phase2
  | 3 => some .phase3
  | 4 => some .phase4
  | 5 => some .phase5
  | 6 => some .phase6
  | 8 => some (.subcyc p.hooks)
  | _ => none

/-- Family 3, the composites (30_encoding.md R51). -/
def decodeComposite (p : Ports) : Nat → Option Instr
  | 0 => some (.readword p.cs p.addr)
  | 1 => some (.scan p.cs)
  | _ => none

/-- The operation a request's byte names, its operands as they stand on the ports. -/
def decodeOperation (r : Request) : Option Instr :=
  match familyOf r.op with
  | 0 => decodeLeaf r.ports (memberOf r.op)
  | 1 => decodePhase r.ports (memberOf r.op)
  | 2 => (kindOfCode (memberOf r.op)).map stepOfKind
  | 3 => decodeComposite r.ports (memberOf r.op)
  | _ => none

/-- Decoding a request: an operation, or a rejection by name (30_encoding.md R59). -/
def decode (r : Request) : Except DecodeError Instr :=
  match decodeOperation r with
  | none => .error (.reserved r.op)
  | some i =>
    match i.defect with
    | none => .ok i
    | some d => .error (.illFormed d)

/-- The operation byte of each operation (30_encoding.md R58). -/
def opcode : Instr → Byte
  | .waitns _ => 0x00
  | .setline _ _ => 0x01
  | .readline _ => 0x02
  | .wrnib _ => 0x03
  | .rdnib => 0x04
  | .imsuppress => 0x05
  | .imrestore _ => 0x06
  | .phase0 => 0x10
  | .phase1 => 0x11
  | .phase2 => 0x12
  | .phase3 => 0x13
  | .phase4 => 0x14
  | .phase5 => 0x15
  | .phase6 => 0x16
  | .subcyc _ => 0x18
  | .init => 0x20
  | .addrlow => 0x21
  | .addrhigh => 0x22
  | .chipsel => 0x23
  | .datahigh => 0x24
  | .datalow => 0x25
  | .trail1 => 0x26
  | .trail2 => 0x27
  | .trail3 => 0x28
  | .readword _ _ => 0x30
  | .scan _ => 0x31

/-- The operand ports of each operation (30_encoding.md R58, R63); a port it does not use carries zero. -/
def portsOf : Instr → Ports
  | .waitns d => { d := d }
  | .setline name level => { outName := name, level := level }
  | .readline name => { inName := name }
  | .wrnib v => { v := v }
  | .imrestore token => { token := token }
  | .subcyc hooks => { hooks := hooks }
  | .readword cs addr => { cs := cs, addr := addr }
  | .scan cs => { cs := cs }
  | .rdnib | .imsuppress => {}
  | .phase0 | .phase1 | .phase2 | .phase3 | .phase4 | .phase5 | .phase6 => {}
  | .init | .addrlow | .addrhigh | .chipsel | .datahigh | .datalow | .trail1 | .trail2 | .trail3 => {}

/-- The request that asks for an operation. -/
def encode (i : Instr) : Request := { op := opcode i, ports := portsOf i }

/-- The request of an opcode-table word: one byte, every operand port zero (log 11). -/
def wordRequest (w : Nat) : Request := { op := BitVec.ofNat 8 w }

/-- The operation the decoder reads from a table word; the table gives every row 8 bits (30_encoding.md R60). -/
def decodeTableWord (nbits w : Nat) : Option Instr :=
  if nbits = 8 then (decode (wordRequest w)).toOption else none

end Sys2Proof
end

