-- ==== Sys2Proof/Config.lean ====
section
/-! DEFINITION. What the spec leaves to the platform (00_scope.md R7, 93_implementation_defined.md U6) and the free
values: constants with no body, of which nothing can be proved. -/

namespace Sys2Proof

/-- `HOOK_ORDER` (00_scope.md R7; 42_phase_sequencer.md R101). -/
inductive HookOrder where
  | hookThenEdge | edgeThenHook
  deriving DecidableEq, Repr

/-- The electrical sense of one line, for `LINE_POLARITY` (00_scope.md R7). -/
inductive Polarity where
  | activeHigh | activeLow
  deriving DecidableEq, Repr, Inhabited

/-- The parameters of one platform (00_scope.md R7). A state carries them, so that a claim about every state is a
claim about every platform; no operation writes them (log 1). -/
structure Config where
  /-- `HOOK_ORDER`. -/
  hookOrder : HookOrder
  /-- `TUNIT_NS`, the timing unit in nanoseconds. -/
  tunit : Nat
  /-- `CLOCK_RES_NS`, the resolution of the monotonic clock: every wait lasts whole ticks of it and then overshoots
  (40_timer.md R75(b)). -/
  clockRes : Nat
  /-- `LINE_RESET`; `none` is `unwritten`. -/
  lineReset : OutLines (Option Level)
  /-- `LINE_POLARITY` of the output lines. -/
  outPolarity : OutLines Polarity
  /-- `LINE_POLARITY` of the input lines. -/
  inPolarity : InLines Polarity
  /-- Whether `InterruptMask` has the privilege to do anything (93_implementation_defined.md U6). -/
  maskEffective : Bool
  /-- `EXIT_FAIL`, the process exit status on the fatal failure. -/
  exitFail : Nat
  deriving DecidableEq, Repr

namespace Config

/-- The bounds 00_scope.md R7 sets on the open parameters. -/
abbrev WellFormed (c : Config) : Prop := 0 < c.tunit ∧ c.clockRes < 1000 ∧ c.exitFail ≠ 0

/-- Free value: one less than `TUNIT_NS` (log 1). -/
opaque freeTunit : Nat

/-- Free value: `CLOCK_RES_NS`, brought below 1000 where it is used (log 1). -/
opaque freeClockRes : Nat

/-- Free value: `LINE_POLARITY` (log 1). -/
opaque freePolarity : Line → Polarity

/-- Free value: whether the interrupt mask is effective (log 1). -/
opaque freeMaskEffective : Bool

/-- Free value: one less than `EXIT_FAIL` (log 1). -/
opaque freeExitFail : Nat

/-- Free value: what `x[cs]` reads as while unwritten (log 2). -/
opaque unwrittenCs : Nat

/-- Free value: what `x[addr]` reads as while unwritten (log 2). -/
opaque unwrittenAddr : Byte

/-- Free value: what `x[result]` reads as while unwritten (log 2). -/
opaque unwrittenResult : Byte

/-- Free value: what the input lines show at each sample (20_memory.md R40; log 4). -/
opaque freeNibble : Nat → Nibble

/-- Free value: each overshoot and each delay between events (70_reset_and_hazards.md R180, R181; log 5). -/
opaque freeDelay : Nat → Nat

/-- Free value: the clock reading at reset (10_state.md R21; log 6). -/
opaque resetNow : Nat

/-- Free value: the host interrupt sources enabled at reset (log 7). -/
opaque resetIrqEnabled : List Nat

/-- Every output line unwritten: the default of `LINE_RESET` (00_scope.md R7, 10_state.md R21). -/
def unwrittenLines : OutLines (Option Level) :=
  { dataOut0 := none, dataOut1 := none, dataOut2 := none, dataOut3 := none,
    clk1 := none, clk2 := none, sync := none, chipMatrixEnable := none }

/-- The platform of `State.reset`: the spec's defaults where 00_scope.md R7 decides one, free values elsewhere. -/
def machine : Config :=
  { hookOrder := .hookThenEdge
    tunit := freeTunit + 1
    clockRes := freeClockRes % 1000
    lineReset := unwrittenLines
    outPolarity :=
      { dataOut0 := freePolarity (.out .dataOut0), dataOut1 := freePolarity (.out .dataOut1),
        dataOut2 := freePolarity (.out .dataOut2), dataOut3 := freePolarity (.out .dataOut3),
        clk1 := freePolarity (.out .clk1), clk2 := freePolarity (.out .clk2),
        sync := freePolarity (.out .sync), chipMatrixEnable := freePolarity (.out .chipMatrixEnable) }
    inPolarity :=
      { dataIn0 := freePolarity (.inp .dataIn0), dataIn1 := freePolarity (.inp .dataIn1),
        dataIn2 := freePolarity (.inp .dataIn2), dataIn3 := freePolarity (.inp .dataIn3) }
    maskEffective := freeMaskEffective
    exitFail := freeExitFail + 1 }

end Config
end Sys2Proof
end

