-- ==== Sys2Proof/Machine/State.lean ====
section
/-! DEFINITION. The state of the machine as plain data (10_state.md), the reasons it can stop, and reset. -/

namespace Sys2Proof.Machine

/-- `pc.kind`: Idle or a cycle kind (10_state.md R14). -/
inductive Kind where
  | idle
  | cycle (k : CycleKind)
  deriving DecidableEq, Repr

/-- The stage within a phase slot (10_state.md R15). -/
inductive Stage where
  | entry | hook | edge | dwell
  deriving DecidableEq, Repr

/-- The sequencer position (10_state.md R14) with its stage (R15); no stage while no operation is at one.
The phase is meaningless while the kind is Idle, but for a phase or sub-cycle requested on its own. -/
structure Pc where
  kind : Kind
  phase : PhaseIndex
  stage : Option Stage
  deriving DecidableEq, Repr

/-- An event of the trace (00_scope.md R9(h)). -/
inductive Event where
  | set (name : OutLine) (level : Level)
  | wrNib (v : Nibble)
  | rdNib (v : Nibble)
  | rd (name : InLine) (level : Level)
  | dwell (d : Nat)
  deriving DecidableEq, Repr

/-- An event, the position it was performed at, and the clock when it started and ended. -/
structure Stamp where
  event : Event
  pc : Pc
  start : Nat
  stop : Nat
  deriving DecidableEq, Repr

/-- What an operation leaves on the result port (30_encoding.md R58, R63). -/
inductive Completion where
  | nothing
  | level (b : Level)
  | nibble (v : Nibble)
  | token (t : Nat)
  | byte (b : Byte)
  | bytes (bs : List Byte)
  deriving DecidableEq, Repr

/-- An outstanding suppression: its token and the set of sources it captured (41_digital_port.md R86). -/
structure Suppression where
  token : Nat
  captured : List Nat
  deriving DecidableEq, Repr

/-- The whole state. `none` in a line, a register or the counter is the spec's own `unwritten` (10_state.md R21). -/
structure State where
  /-- The platform's parameters (00_scope.md R7); never written. -/
  config : Config
  /-- The eight output latches (10_state.md R11). -/
  lines : OutLines (Option Level)
  /-- `x[cs]` (10_state.md R13). -/
  cs : Option Nat
  /-- `x[addr]` (10_state.md R13). -/
  addr : Option Byte
  /-- `x[result]` (10_state.md R13). -/
  result : Option Byte
  /-- The sequencer position (10_state.md R14, R15). -/
  pc : Pc
  /-- The monotonic clock in nanoseconds (10_state.md R16). -/
  now : Nat
  /-- The driver's address counter (10_state.md R19(a)). -/
  counter : Option Byte
  /-- The driver's output buffer, in address order (10_state.md R19(b)). -/
  buffer : List Byte
  /-- The outstanding token (10_state.md R19(c)). -/
  suppressed : Option Suppression
  /-- The host interrupt sources enabled for the caller (41_digital_port.md R86, R87). -/
  irqEnabled : List Nat
  /-- The model's own: tokens handed out so far (log 8). -/
  tokensIssued : Nat
  /-- The requests the caller will still issue, the next one first (30_encoding.md R63). -/
  requests : List Request
  /-- The result port (30_encoding.md R63). -/
  completion : Completion
  /-- The model's own: what the input lines will show at the coming samples (log 4). -/
  answers : List Nibble
  /-- The model's own: the index of the next free answer (log 4). -/
  sampleCount : Nat
  /-- The model's own: the coming delays and overshoots (log 5). -/
  delays : List Nat
  /-- The model's own: the index of the next free delay (log 5). -/
  delayCount : Nat
  /-- The event trace, newest first (00_scope.md R9(h)). -/
  log : List Stamp
  deriving DecidableEq, Repr

/-- The only fault of the system (60_exceptions.md R150, R151). -/
inductive Fault where
  /-- Raised by `launch` when the port cannot be acquired, before any operation runs; no step raises it
  (60_exceptions.md R151). Safe: it is the spec's own outcome. -/
  | ioAcquireFailure
  deriving DecidableEq, Repr

/-- What a model refuses (60_exceptions.md R165). -/
inductive Refusal where
  /-- Raised by an arm of `exec` whose operation has no meaning yet. Safe: the machine stops. -/
  | notModelled (mnemonic : String)
  /-- Raised by `step` on a reserved operation byte (30_encoding.md R59(a)). Safe: the spec has a model refuse it. -/
  | reservedOperation (op : Byte)
  /-- Raised by `step`, `SETLINE`, `READLINE` and `SUBCYC` on an operand the spec does not define
  (30_encoding.md R59(b), R59(e)). Safe: the spec has a model refuse it. -/
  | illFormed (d : Defect)
  /-- Raised by `IMSUPPRESS` while a token is outstanding (60_exceptions.md R157). Safe: the spec has a model refuse it. -/
  | nestedSuppress
  /-- Raised by `IMRESTORE` on a token that is not the outstanding one (41_digital_port.md R87). Safe: the spec has a
  model refuse it. -/
  | tokenMisuse (token : Nat)
  /-- Raised by `step` while the position is not Idle (30_encoding.md R63). Safe: such a request cannot occur. -/
  | busy
  deriving DecidableEq, Repr

namespace State

/-- The machine after reset on a given platform, with the clock at `t` and the host's interrupt set `irq`
(10_state.md R21; 70_reset_and_hazards.md R170). -/
def resetOn (c : Config) (t : Nat) (irq : List Nat) : State :=
  { config := c
    lines := c.lineReset
    cs := none
    addr := none
    result := none
    pc := { kind := .idle, phase := 0, stage := none }
    now := t
    counter := none
    buffer := []
    suppressed := none
    irqEnabled := irq
    tokensIssued := 0
    requests := []
    completion := .nothing
    answers := []
    sampleCount := 0
    delays := []
    delayCount := 0
    log := [] }

/-- The machine right after reset (10_state.md R21). -/
def reset : State := resetOn Config.machine Config.resetNow Config.resetIrqEnabled

/-- The event trace in the order performed (00_scope.md R9(h)). -/
def trace (s : State) : List Stamp := s.log.reverse

/-- The events of the trace in the order performed. -/
def events (s : State) : List Event := s.trace.map Stamp.event

end State
end Sys2Proof.Machine
end

