-- ==== Sys2Proof/Machine/Operands.lean ====
section
/-! DEFINITION. The block's arithmetic (43_cycle_engine.md R125): cutting operands into nibbles, putting a byte together
from two samples, and the map between a nibble and four lines (30_encoding.md R52 to R54, R57). -/

namespace Sys2Proof.Machine

/-- `addr[3:0]` (30_encoding.md R52). -/
def lowNibble (a : Byte) : Nibble := a.extractLsb' 0 4

/-- `addr[7:4]` (30_encoding.md R52). -/
def highNibble (a : Byte) : Nibble := a.extractLsb' 4 4

/-- `cs mod 8` as the chip-select nibble (30_encoding.md R53). -/
def chipNibble (cs : Nat) : Nibble := BitVec.ofNat 4 (cs % 8)

/-- `v & 0xF`, the part of a number that `WRNIB` uses (41_digital_port.md R83). -/
def writtenNibble (v : Nat) : Nibble := BitVec.ofNat 4 v

/-- `zext_8(h) << 4`, the DataHigh write (43_cycle_engine.md R114). -/
def highSample (h : Nibble) : Byte := h.setWidth 8 <<< 4

/-- `r | zext_8(l)`, the DataLow write (43_cycle_engine.md R115). -/
def orLowSample (r : Byte) (l : Nibble) : Byte := r ||| l.setWidth 8

/-- The level of `DataIni` in a sampled nibble (30_encoding.md R57). -/
def inputBit (v : Nibble) : InLine → Level
  | .dataIn0 => v.getLsbD 0
  | .dataIn1 => v.getLsbD 1
  | .dataIn2 => v.getLsbD 2
  | .dataIn3 => v.getLsbD 3

/-- The value of one output line. -/
def outGet {α : Type} (ls : OutLines α) : OutLine → α
  | .dataOut0 => ls.dataOut0
  | .dataOut1 => ls.dataOut1
  | .dataOut2 => ls.dataOut2
  | .dataOut3 => ls.dataOut3
  | .clk1 => ls.clk1
  | .clk2 => ls.clk2
  | .sync => ls.sync
  | .chipMatrixEnable => ls.chipMatrixEnable

/-- One output line written, the other seven kept. -/
def outSet {α : Type} (ls : OutLines α) (l : OutLine) (v : α) : OutLines α :=
  match l with
  | .dataOut0 => { ls with dataOut0 := v }
  | .dataOut1 => { ls with dataOut1 := v }
  | .dataOut2 => { ls with dataOut2 := v }
  | .dataOut3 => { ls with dataOut3 := v }
  | .clk1 => { ls with clk1 := v }
  | .clk2 => { ls with clk2 := v }
  | .sync => { ls with sync := v }
  | .chipMatrixEnable => { ls with chipMatrixEnable := v }

/-- The four data lines written at once, `DataOuti <- n[i]` (20_memory.md R35). -/
def outNibble (ls : OutLines (Option Level)) (n : Nibble) : OutLines (Option Level) :=
  { ls with
    dataOut0 := some (n.getLsbD 0)
    dataOut1 := some (n.getLsbD 1)
    dataOut2 := some (n.getLsbD 2)
    dataOut3 := some (n.getLsbD 3) }

/-- The value of one input line. -/
def inGet {α : Type} (ls : InLines α) : InLine → α
  | .dataIn0 => ls.dataIn0
  | .dataIn1 => ls.dataIn1
  | .dataIn2 => ls.dataIn2
  | .dataIn3 => ls.dataIn3

/-- The tick of the monotonic clock: `CLOCK_RES_NS`, or one nanosecond where the clock is finer (10_state.md R16). -/
def tickOf (c : Config) : Nat := max 1 c.clockRes

/-- `d` rounded up to the next whole tick (40_timer.md R75(b)). -/
def roundUp (tick d : Nat) : Nat := d + (tick - d % tick) % tick

/-- `LINE_POLARITY` of any of the twelve lines (00_scope.md R7). -/
def polarityOf (c : Config) : Line → Polarity
  | .out l => outGet c.outPolarity l
  | .inp l => inGet c.inPolarity l

/-- A logical level at the electrical boundary: true is electrically high (30_encoding.md R57). -/
def electrical (p : Polarity) (level : Level) : Bool :=
  match p with
  | .activeHigh => level
  | .activeLow => !level

/-- Whether an output line is electrically high; nothing while it is unwritten (30_encoding.md R57). -/
def electricalOut (s : State) (l : OutLine) : Option Bool :=
  (outGet s.lines l).map (electrical (polarityOf s.config (.out l)))

end Sys2Proof.Machine
end

