-- ==== Sys2Proof/Machine/Ops.lean ====
section
/-! DEFINITION. The shared operations: the environment's draws, the registers, the port primitives, the wait, and the
end of an operation. There is no exception to take and none to return from (60_exceptions.md R156, R157). -/

namespace Sys2Proof.Machine

/-- What a meaning answers. -/
abbrev Answer := Host.Outcome State Fault Refusal

/-! ### The environment's draws -/

/-- The nibble the input lines show at the `k`-th sample from now (20_memory.md R40): the environment's own answer
where the state lists one, a free value after that (log 4). -/
def answerAt (s : State) (k : Nat) : Nibble :=
  match s.answers[k]? with
  | some v => v
  | none => Config.freeNibble (s.sampleCount + k)

/-- The `k`-th draw of time from now (70_reset_and_hazards.md R180, R181): as the environment lists it, a free value
after that (log 5). -/
def delayAt (s : State) (k : Nat) : Nat :=
  match s.delays[k]? with
  | some g => g
  | none => Config.freeDelay (s.delayCount + k)

/-- One sample is used up. -/
def takeAnswer (s : State) : State :=
  { s with answers := s.answers.tail, sampleCount := s.sampleCount + 1 }

/-- The clock moves on by `d` and one draw of time (40_timer.md R76). -/
def advance (d : Nat) (s : State) : State :=
  { s with now := s.now + d + delayAt s 0, delays := s.delays.tail, delayCount := s.delayCount + 1 }

/-! ### Registers -/

/-- `x[cs]`; a free value while unwritten (10_state.md R13, R21; log 2). -/
def readCs (s : State) : Nat := s.cs.getD Config.unwrittenCs

/-- `x[addr]`; a free value while unwritten (10_state.md R13, R21; log 2). -/
def readAddr (s : State) : Byte := s.addr.getD Config.unwrittenAddr

/-- `x[result]`; a free value while unwritten (10_state.md R13, R21; log 2). -/
def readResult (s : State) : Byte := s.result.getD Config.unwrittenResult

/-- `x[cs] <- n` (10_state.md R13). -/
def writeCs (n : Nat) (s : State) : State := { s with cs := some n }

/-- `x[addr] <- a` (10_state.md R13). -/
def writeAddr (a : Byte) (s : State) : State := { s with addr := some a }

/-- `x[result] <- b`, all eight bits (10_state.md R13). -/
def writeResult (b : Byte) (s : State) : State := { s with result := some b }

/-! ### The position -/

/-- `pc <- (k, 0)` (43_cycle_engine.md R119). -/
def enterKind (k : CycleKind) (s : State) : State :=
  { s with pc := { kind := .cycle k, phase := 0, stage := none } }

/-- `pc.phase <- i` (42_phase_sequencer.md R100). -/
def enterPhase (i : PhaseIndex) (s : State) : State := { s with pc := { s.pc with phase := i } }

/-- The stage of the next event (10_state.md R15). -/
def enterStage (st : Stage) (s : State) : State := { s with pc := { s.pc with stage := some st } }

/-- `pc <- Idle` (43_cycle_engine.md R120, R123). -/
def goIdle (s : State) : State := { s with pc := { s.pc with kind := .idle, stage := none } }

/-! ### Events -/

/-- An event that began at `start` and ends now joins the trace (00_scope.md R9(h)). -/
def record (e : Event) (start : Nat) (s : State) : State :=
  { s with log := { event := e, pc := s.pc, start := start, stop := s.now } :: s.log }

/-- A port event: a gap, then the event, which takes no time itself (40_timer.md R76; 70_reset_and_hazards.md R181). -/
def emit (e : Event) (s : State) : State := record e (advance 0 s).now (advance 0 s)

/-- `SetLine(name, level)` (41_digital_port.md R81). -/
def setLine (l : OutLine) (level : Level) (s : State) : State :=
  emit (.set l level) { s with lines := outSet s.lines l (some level) }

/-- `WriteNibble(n)` on the low four bits already taken: one event on four lines (41_digital_port.md R83). -/
def writeNibble (n : Nibble) (s : State) : State :=
  emit (.wrNib n) { s with lines := outNibble s.lines n }

/-- `ReadNibble()`: the state after the sample; the value is `answerAt s 0` (41_digital_port.md R84). -/
def readNibble (s : State) : State := takeAnswer (emit (.rdNib (answerAt s 0)) s)

/-- `ReadLine(name)`: the state after the sample; the level is the line's bit of `answerAt s 0`
(41_digital_port.md R82). -/
def readLine (l : InLine) (s : State) : State := takeAnswer (emit (.rd l (inputBit (answerAt s 0) l)) s)

/-- `Wait(d)`: a gap, then `d` rounded up to the clock's tick and an overshoot (40_timer.md R71, R72, R75(b), R76). That
the wait ends is the spec's fairness of the clock (R75(c); log 12); how the tick bounds it is log 13. -/
def wait (d : Nat) (s : State) : State :=
  record (.dwell d) (advance 0 s).now (advance (roundUp (tickOf s.config) d) (advance 0 s))

/-- The dwell that ends every phase slot: `Wait(TUNIT_NS)` (42_phase_sequencer.md R90). -/
def dwell (s : State) : State := wait s.config.tunit (enterStage .dwell s)

/-! ### The end of an operation -/

/-- Completion: the result on the result port and the block Idle again (30_encoding.md R63). -/
def complete (c : Completion) (s : State) : State := { goIdle s with completion := c }

/-- What an operation answers when it completes. -/
def finish (c : Completion) (s : State) : Answer := .next (complete c s)

end Sys2Proof.Machine
end

