-- ==== Sys2Proof/Machine/Mask.lean ====
section
/-! DEFINITION. InterruptMask: `IMSUPPRESS`, `IMRESTORE` (41_digital_port.md R86 to R88). -/

namespace Sys2Proof.Machine

/-- The sources enabled after a write of the mask: `new`, or no change on a platform without the privilege
(41_digital_port.md R86; 93_implementation_defined.md U6). -/
def maskWrite (new : List Nat) (s : State) : State :=
  { s with irqEnabled := if s.config.maskEffective then new else s.irqEnabled }

/-- Delivery disabled and the previously enabled set captured under a fresh token (41_digital_port.md R86). The call takes
some time, one draw (log 5). -/
def suppress (s : State) : State :=
  advance 0 (maskWrite []
    { s with
      suppressed := some { token := s.tokensIssued, captured := s.irqEnabled }
      tokensIssued := s.tokensIssued + 1 })

/-- Exactly the captured set enabled again; the token is used up (41_digital_port.md R87). The call takes some time, one
draw (log 5). -/
def restore (captured : List Nat) (s : State) : State :=
  advance 0 (maskWrite captured { s with suppressed := none })

/-- `IMSUPPRESS` (41_digital_port.md R86); nested suppression is refused (60_exceptions.md R157). -/
def execImsuppress (s : State) : Answer :=
  match s.suppressed with
  | none => finish (.token s.tokensIssued) (suppress s)
  | some _ => .refused .nestedSuppress

/-- `IMRESTORE token` (41_digital_port.md R87); a token that is not the outstanding one is refused. -/
def execImrestore (token : Nat) (s : State) : Answer :=
  match s.suppressed with
  | none => .refused (.tokenMisuse token)
  | some p => if p.token = token then finish .nothing (restore p.captured s) else .refused (.tokenMisuse token)

end Sys2Proof.Machine
end

