-- ==== Sys2Proof/Machine/Port.lean ====
section
/-! DEFINITION. DigitalPort: `SETLINE`, `READLINE`, `WRNIB`, `RDNIB` (41_digital_port.md). -/

namespace Sys2Proof.Machine

/-- `SETLINE name, level` (41_digital_port.md R81); an input line is refused (30_encoding.md R59(e)). -/
def execSetline (name : Line) (level : Level) (s : State) : Answer :=
  match name with
  | .out l => finish .nothing (setLine l level s)
  | .inp l => .refused (.illFormed (.notAnOutputLine l))

/-- `READLINE name` (41_digital_port.md R82); an output line is refused (30_encoding.md R59(e)). -/
def execReadline (name : Line) (s : State) : Answer :=
  match name with
  | .inp l => finish (.level (inputBit (answerAt s 0) l)) (readLine l s)
  | .out l => .refused (.illFormed (.notAnInputLine l))

/-- `WRNIB v` (41_digital_port.md R83). -/
def execWrnib (v : Nat) (s : State) : Answer := finish .nothing (writeNibble (writtenNibble v) s)

/-- `RDNIB` (41_digital_port.md R84). -/
def execRdnib (s : State) : Answer := finish (.nibble (answerAt s 0)) (readNibble s)

end Sys2Proof.Machine
end

