-- ==== Sys2Proof/Machine/Phase.lean ====
section
/-! DEFINITION. PhaseSequencer: `PHASE0` to `PHASE6`, `SUBCYC` (42_phase_sequencer.md). -/

namespace Sys2Proof.Machine

/-- `Edge(i)`, the clock edge of a phase, where it has one (42_phase_sequencer.md R90). -/
def clockEdge (i : PhaseIndex) (s : State) : State :=
  match i with
  | 0 => setLine .clk2 Level.N (enterStage .edge s)
  | 1 => setLine .clk1 Level.A (enterStage .edge s)
  | 2 => s
  | 3 => setLine .clk1 Level.N (enterStage .edge s)
  | 4 => s
  | 5 => setLine .clk2 Level.A (enterStage .edge s)
  | 6 => s

/-- `PHASE(i)`: the edge, then the dwell (42_phase_sequencer.md R90). -/
def runPhase (i : PhaseIndex) (s : State) : State := dwell (clockEdge i (enterPhase i s))

/-- A nibble sampled by a hook, put to its use (43_cycle_engine.md R114, R115). -/
def sample (use : SampleUse) (s : State) : State :=
  match use with
  | .discard => readNibble s
  | .resultHigh => writeResult (highSample (answerAt s 0)) (readNibble s)
  | .resultLow => writeResult (orLowSample (readResult s) (answerAt s 0)) (readNibble s)

/-- A register update of a hook (30_encoding.md R64). -/
def updateRegister (u : RegUpdate) (s : State) : State :=
  match u with
  | .cs n => writeCs n s
  | .addr a => writeAddr a s
  | .result b => writeResult b s

/-- One action of a hook (30_encoding.md R64). -/
def runAction (a : HookAction) (s : State) : State :=
  match a with
  | .setLine l level => setLine l level (enterStage .hook s)
  | .readLine l => readLine l (enterStage .hook s)
  | .wrNib v => writeNibble (writtenNibble v) (enterStage .hook s)
  | .rdNib use => sample use (enterStage .hook s)
  | .update u => updateRegister u s

/-- The actions of a hook, in order (30_encoding.md R64). -/
def runActions (as : List HookAction) (s : State) : State := as.foldl (fun t a => runAction a t) s

/-- The actions a hook map holds at an index; none where the index is not in it (42_phase_sequencer.md R100). -/
def hookAt (hooks : Hooks) (i : PhaseIndex) : List HookAction := (hooks.lookup i.val).getD []

/-- The hook and the edge of a phase slot, in the order of `HOOK_ORDER` (42_phase_sequencer.md R100, R101). -/
def hookAndEdge (hooks : Hooks) (i : PhaseIndex) (s : State) : State :=
  match s.config.hookOrder with
  | .hookThenEdge => clockEdge i (runActions (hookAt hooks i) s)
  | .edgeThenHook => runActions (hookAt hooks i) (clockEdge i s)

/-- One phase slot of a sub-cycle (42_phase_sequencer.md R100). -/
def runSlot (hooks : Hooks) (i : PhaseIndex) (s : State) : State := dwell (hookAndEdge hooks i (enterPhase i s))

/-- `SUBCYC(hooks)`: the seven slots, ascending, always (42_phase_sequencer.md R100). -/
def runSubCycle (hooks : Hooks) (s : State) : State :=
  [0, 1, 2, 3, 4, 5, 6].foldl (fun t i => runSlot hooks i t) s

/-- `PHASE0` (42_phase_sequencer.md R91). -/
def execPhase0 (s : State) : Answer := finish .nothing (runPhase 0 s)

/-- `PHASE1` (42_phase_sequencer.md R92). -/
def execPhase1 (s : State) : Answer := finish .nothing (runPhase 1 s)

/-- `PHASE2` (42_phase_sequencer.md R93). -/
def execPhase2 (s : State) : Answer := finish .nothing (runPhase 2 s)

/-- `PHASE3` (42_phase_sequencer.md R94). -/
def execPhase3 (s : State) : Answer := finish .nothing (runPhase 3 s)

/-- `PHASE4` (42_phase_sequencer.md R95). -/
def execPhase4 (s : State) : Answer := finish .nothing (runPhase 4 s)

/-- `PHASE5` (42_phase_sequencer.md R96). -/
def execPhase5 (s : State) : Answer := finish .nothing (runPhase 5 s)

/-- `PHASE6` (42_phase_sequencer.md R97). -/
def execPhase6 (s : State) : Answer := finish .nothing (runPhase 6 s)

/-- `SUBCYC hooks` (42_phase_sequencer.md R100); a hook operand that is no map from 0..6 is refused
(30_encoding.md R59(b), R64). -/
def execSubcyc (hooks : Hooks) (s : State) : Answer :=
  match hooksDefect hooks with
  | none => finish .nothing (runSubCycle hooks s)
  | some d => .refused (.illFormed d)

end Sys2Proof.Machine
end

