-- ==== Sys2Proof/Machine/Cycle.lean ====
section
/-! DEFINITION. CycleEngine: the nine cycle steps and `READWORD` (43_cycle_engine.md). -/

namespace Sys2Proof.Machine

/-- An entry action that drives a control line, before phase slot 0 (43_cycle_engine.md R119). -/
def entryLine (l : OutLine) (level : Level) (s : State) : State := setLine l level (enterStage .entry s)

/-- An entry action that drives the output nibble, before phase slot 0 (43_cycle_engine.md R119). -/
def entryNibble (n : Nibble) (s : State) : State := writeNibble n (enterStage .entry s)

/-- The hook map of ChipSelect (43_cycle_engine.md R113). -/
def chipSelectHooks : Hooks := [(3, [.setLine .chipMatrixEnable Level.A])]

/-- The hook map of DataHigh (43_cycle_engine.md R114). -/
def dataHighHooks : Hooks :=
  [(0, [.wrNib 0, .setLine .chipMatrixEnable Level.N]), (5, [.rdNib .resultHigh])]

/-- The hook map of DataLow (43_cycle_engine.md R115). -/
def dataLowHooks : Hooks := [(5, [.rdNib .resultLow])]

/-- The Init step (43_cycle_engine.md R110). -/
def initStep (s : State) : State := runSubCycle [] (entryLine .sync Level.A (enterKind .init s))

/-- The AddrLow step (43_cycle_engine.md R111). -/
def addrLowStep (s : State) : State :=
  runSubCycle [] (entryNibble (lowNibble (readAddr s)) (entryLine .sync Level.N (enterKind .addrLow s)))

/-- The AddrHigh step (43_cycle_engine.md R112). -/
def addrHighStep (s : State) : State :=
  runSubCycle [] (entryNibble (highNibble (readAddr s)) (enterKind .addrHigh s))

/-- The ChipSelect step (43_cycle_engine.md R113). -/
def chipSelectStep (s : State) : State :=
  runSubCycle chipSelectHooks (entryNibble (chipNibble (readCs s)) (enterKind .chipSelect s))

/-- The DataHigh step (43_cycle_engine.md R114). -/
def dataHighStep (s : State) : State := runSubCycle dataHighHooks (enterKind .dataHigh s)

/-- The DataLow step (43_cycle_engine.md R115). -/
def dataLowStep (s : State) : State := runSubCycle dataLowHooks (enterKind .dataLow s)

/-- The Trail1 step (43_cycle_engine.md R116). -/
def trail1Step (s : State) : State := runSubCycle [] (enterKind .trail1 s)

/-- The Trail2 step (43_cycle_engine.md R117). -/
def trail2Step (s : State) : State := runSubCycle [] (enterKind .trail2 s)

/-- The Trail3 step (43_cycle_engine.md R118). -/
def trail3Step (s : State) : State := runSubCycle [] (entryLine .sync Level.A (enterKind .trail3 s))

/-- The transaction: the operands loaded, the eight steps, then Idle (43_cycle_engine.md R120). -/
def readWord (cs : Nat) (a : Byte) (s : State) : State :=
  let s := writeAddr a (writeCs cs s)
  let s := chipSelectStep (addrHighStep (addrLowStep s))
  let s := dataLowStep (dataHighStep s)
  goIdle (trail3Step (trail2Step (trail1Step s)))

/-- `INIT` (43_cycle_engine.md R110). -/
def execInit (s : State) : Answer := finish .nothing (initStep s)

/-- `ADDRLOW` (43_cycle_engine.md R111). -/
def execAddrlow (s : State) : Answer := finish .nothing (addrLowStep s)

/-- `ADDRHIGH` (43_cycle_engine.md R112). -/
def execAddrhigh (s : State) : Answer := finish .nothing (addrHighStep s)

/-- `CHIPSEL` (43_cycle_engine.md R113). -/
def execChipsel (s : State) : Answer := finish .nothing (chipSelectStep s)

/-- `DATAHIGH` (43_cycle_engine.md R114). -/
def execDatahigh (s : State) : Answer := finish .nothing (dataHighStep s)

/-- `DATALOW` (43_cycle_engine.md R115). -/
def execDatalow (s : State) : Answer := finish .nothing (dataLowStep s)

/-- `TRAIL1` (43_cycle_engine.md R116). -/
def execTrail1 (s : State) : Answer := finish .nothing (trail1Step s)

/-- `TRAIL2` (43_cycle_engine.md R117). -/
def execTrail2 (s : State) : Answer := finish .nothing (trail2Step s)

/-- `TRAIL3` (43_cycle_engine.md R118). -/
def execTrail3 (s : State) : Answer := finish .nothing (trail3Step s)

/-- `READWORD cs, addr` (43_cycle_engine.md R120). -/
def execReadword (cs : Nat) (addr : Byte) (s : State) : Answer :=
  finish (.byte (readResult (readWord cs addr s))) (readWord cs addr s)

end Sys2Proof.Machine
end

