-- ==== Sys2Proof/Machine/Scan.lean ====
section
/-! DEFINITION. ScanDriver: `SCAN` (44_scan_driver.md). -/

namespace Sys2Proof.Machine

/-- The output buffer emptied: at the start of a scan, and flushed once it is returned (10_state.md R19(b)). -/
def flushBuffer (s : State) : State := { s with buffer := [] }

/-- The address counter set for one turn of the loop (10_state.md R19(a)). -/
def setCounter (a : Byte) (s : State) : State := { s with counter := some a }

/-- The byte of the last transaction joins the output buffer (10_state.md R19(b)). -/
def appendResult (s : State) : State := { s with buffer := s.buffer ++ [readResult s] }

/-- One turn of the address loop: the counter, the transaction, its byte appended (44_scan_driver.md R130). -/
def scanWord (cs : Nat) (a : Byte) (s : State) : State :=
  appendResult (readWord cs a (setCounter a s))

/-- The address loop over a list of addresses (44_scan_driver.md R130). -/
def scanWords (cs : Nat) (as : List Nat) (s : State) : State :=
  as.foldl (fun t a => scanWord cs (BitVec.ofNat 8 a) t) s

/-- The scan up to its last transaction: an empty buffer, Init once, then addresses 0 to 255 (44_scan_driver.md R130). -/
def scanLoop (cs : Nat) (s : State) : State :=
  scanWords cs (List.range 256) (goIdle (initStep (flushBuffer s)))

/-- `SCAN cs` (44_scan_driver.md R130); the buffer is flushed once it is returned (10_state.md R19(b)). -/
def execScan (cs : Nat) (s : State) : Answer :=
  finish (.bytes (scanLoop cs s).buffer) (flushBuffer (scanLoop cs s))

end Sys2Proof.Machine
end

