-- ==== Sys2Proof/Machine/Timer.lean ====
section
/-! DEFINITION. MonotonicSpinTimer: `WAITNS` (40_timer.md). -/

namespace Sys2Proof.Machine

/-- `WAITNS d` (40_timer.md R71). Requested on its own it belongs to no sub-cycle: its event stands at the position as it
is, Idle (95_test_vectors.md Program 5) with the last phase and no stage. The phase and the stage are a DESIGN CHOICE
(log 9). -/
def execWaitns (d : Nat) (s : State) : Answer := finish .nothing (wait d s)

/-- The spin loop of 40_timer.md R71 on the readings its polls see, in order: the reading it returns at, the first to
reach the deadline `t0 + d`, or nothing while none has. -/
def pollLoop (t0 d : Nat) : List Nat → Option Nat
  | [] => none
  | t :: later => if t0 + d ≤ t then some t else pollLoop t0 d later

end Sys2Proof.Machine
end

