-- ==== Sys2Proof/Machine/Dispatch.lean ====
section
/-! DEFINITION. One arm for each operation of the opcode table (30_encoding.md R58). -/

namespace Sys2Proof.Machine

def exec (i : Instr) (s : State) : Host.Outcome State Fault Refusal :=
  match i with
  | .waitns d => Sys2Proof.Machine.execWaitns d s
  | .setline name level => Sys2Proof.Machine.execSetline name level s
  | .readline name => Sys2Proof.Machine.execReadline name s
  | .wrnib v => Sys2Proof.Machine.execWrnib v s
  | .rdnib => Sys2Proof.Machine.execRdnib s
  | .imsuppress => Sys2Proof.Machine.execImsuppress s
  | .imrestore token => Sys2Proof.Machine.execImrestore token s
  | .phase0 => Sys2Proof.Machine.execPhase0 s
  | .phase1 => Sys2Proof.Machine.execPhase1 s
  | .phase2 => Sys2Proof.Machine.execPhase2 s
  | .phase3 => Sys2Proof.Machine.execPhase3 s
  | .phase4 => Sys2Proof.Machine.execPhase4 s
  | .phase5 => Sys2Proof.Machine.execPhase5 s
  | .phase6 => Sys2Proof.Machine.execPhase6 s
  | .subcyc hooks => Sys2Proof.Machine.execSubcyc hooks s
  | .init => Sys2Proof.Machine.execInit s
  | .addrlow => Sys2Proof.Machine.execAddrlow s
  | .addrhigh => Sys2Proof.Machine.execAddrhigh s
  | .chipsel => Sys2Proof.Machine.execChipsel s
  | .datahigh => Sys2Proof.Machine.execDatahigh s
  | .datalow => Sys2Proof.Machine.execDatalow s
  | .trail1 => Sys2Proof.Machine.execTrail1 s
  | .trail2 => Sys2Proof.Machine.execTrail2 s
  | .trail3 => Sys2Proof.Machine.execTrail3 s
  | .readword cs addr => Sys2Proof.Machine.execReadword cs addr s
  | .scan cs => Sys2Proof.Machine.execScan cs s

end Sys2Proof.Machine
end

