-- ==== Sys2Proof/Machine/Step.lean ====
section
/-! DEFINITION. One step: the next request is accepted, decoded and run to its end (30_encoding.md R63). -/

namespace Sys2Proof.Machine

/-- Why a step refuses a request the decoder rejects (30_encoding.md R59). -/
def refusalOf : DecodeError → Refusal
  | .reserved op => .reservedOperation op
  | .illFormed d => .illFormed d

/-- One step. A block that is not Idle accepts nothing (30_encoding.md R63); an Idle block with no request does nothing
(70_reset_and_hazards.md R171); otherwise the next request is taken off the list and its operation runs. -/
def step (s : State) : Host.Outcome State Fault Refusal :=
  match s.pc.kind with
  | .cycle _ => .refused .busy
  | .idle =>
    match s.requests with
    | [] => .next s
    | r :: later =>
      match decode r with
      | .error e => .refused (refusalOf e)
      | .ok i => exec i { s with requests := later }

/-- The state in which the next step takes the request of a table word: it stands first in the caller's list and the
block is Idle, as accepting it needs (log 3). -/
def State.withFetchWord (s : State) (nbits w : Nat) : State :=
  { s with
    pc := { s.pc with kind := .idle }
    requests := if nbits = 8 then wordRequest w :: s.requests else s.requests }

end Sys2Proof.Machine
end

