-- ==== Sys2Proof/Machine/Launch.lean ====
section
/-! DEFINITION. The launch: acquiring the port, before any operation runs (41_digital_port.md R85; 60_exceptions.md R151;
70_reset_and_hazards.md R173). It is no step of the block. -/

namespace Sys2Proof.Machine

/-- A launch, told whether the acquisition of 70_reset_and_hazards.md R173(1) succeeded: the reset state if the port was acquired, the fatal failure if not (60_exceptions.md R151). -/
def launch (acquired : Bool) : Answer := if acquired then .next State.reset else .fault .ioAcquireFailure

/-- The process exit status a fatal failure gives, if there is one (00_scope.md R7, `EXIT_FAIL`). -/
def exitStatus (c : Config) (a : Answer) : Option Nat :=
  match a with
  | .fault .ioAcquireFailure => some c.exitFail
  | .next _ | .refused _ => none

end Sys2Proof.Machine
end

