-- ==== Sys2Proof/Safety.lean ====
section
/-! DEFINITION. The terms claims are made in: the named premises of 70_reset_and_hazards.md R193, the short event names of
00_scope.md R9(h), what a trace says about the lines, and what an operation leaves as it was. -/

namespace Sys2Proof.Safety

open Sys2Proof.Machine

/-! ### Premises -/

/-- `PortAcquired`: the acquisition of the port succeeded (70_reset_and_hazards.md R193, R173(1)). -/
abbrev PortAcquired (acquired : Bool) : Prop := acquired = true

/-- `StartIdle`: nothing is in progress (70_reset_and_hazards.md R193). -/
abbrev StartIdle (s : State) : Prop := s.pc.kind = .idle

/-- `StartFromReset`: every latch and register unwritten (70_reset_and_hazards.md R193; 10_state.md R21). -/
abbrev StartFromReset (s : State) : Prop :=
  s.lines = Config.unwrittenLines ∧ s.cs = none ∧ s.addr = none ∧ s.result = none

/-- The line levels every scan and every transaction leaves (10_state.md R24). -/
def restLines : OutLines (Option Level) :=
  { dataOut0 := some false, dataOut1 := some false, dataOut2 := some false, dataOut3 := some false,
    clk1 := some Level.N, clk2 := some Level.A, sync := some Level.A, chipMatrixEnable := some Level.N }

/-- `StartAfterRun`: the lines as a run leaves them (70_reset_and_hazards.md R193; 10_state.md R24). -/
abbrev StartAfterRun (s : State) : Prop := s.lines = restLines

/-- `ClockFair`: the clock passes every deadline (40_timer.md R75(c)). -/
def ClockFair (clock : Nat → Nat) : Prop := ∀ deadline, ∃ n, deadline ≤ clock n

/-- Readings of the platform's clock that polls may see from `s` on: none before `s`, all on its ticks (10_state.md R16). -/
def OnTheClock (s : State) (readings : List Nat) : Prop :=
  ∀ u ∈ readings, s.now ≤ u ∧ tickOf s.config ∣ u - s.now

/-- `StubTarget(v)` for the next `n` samples (20_memory.md R41; 70_reset_and_hazards.md R193). -/
def StubTarget (v : Nibble) (n : Nat) (s : State) : Prop := ∀ k, k < n → answerAt s k = v

/-- The transactions an operation performs, in order, each with its chip-select and its address
(00_scope.md section 6, "Transaction / word read" and "Scan"). -/
def transactions : Instr → List (Nat × Byte)
  | .readword cs a => [(cs, a)]
  | .scan cs => (List.range 256).map fun a => (cs, BitVec.ofNat 8 a)
  | .waitns _ | .setline _ _ | .readline _ | .wrnib _ | .rdnib | .imsuppress | .imrestore _ => []
  | .phase0 | .phase1 | .phase2 | .phase3 | .phase4 | .phase5 | .phase6 | .subcyc _ => []
  | .init | .addrlow | .addrhigh | .chipsel | .datahigh | .datalow | .trail1 | .trail2 | .trail3 => []

/-- The two samples of each transaction of an operation run from `s` are the nibbles of `ROM(cs mod 8, addr)`
(20_memory.md R41). -/
def IdealSamples (rom : Nat → Byte → Byte) (i : Instr) (s : State) : Prop :=
  ∀ k cs a, (transactions i)[k]? = some (cs, a) →
    answerAt s (2 * k) = (rom (cs % 8) a).extractLsb' 4 4 ∧
    answerAt s (2 * k + 1) = (rom (cs % 8) a).extractLsb' 0 4

/-- A run: operations completed one after the other, from `s` to `t` (70_reset_and_hazards.md R194). -/
def Runs : State → List Instr → State → Prop
  | s, [], t => t = s
  | s, i :: later, t => ∃ u, exec i s = .next u ∧ Runs u later t

/-- `IdealTarget(ROM)` for a run: so it is in every transaction of every operation of it (20_memory.md R41;
70_reset_and_hazards.md R193). -/
def IdealTarget (rom : Nat → Byte → Byte) : List Instr → State → Prop
  | [], _ => True
  | i :: later, s => IdealSamples rom i s ∧ ∀ t, exec i s = .next t → IdealTarget rom later t

/-- The bytes an operation returned on the result port. -/
def bytesOf : Completion → List Byte
  | .byte b => [b]
  | .bytes bs => bs
  | .nothing | .level _ | .nibble _ | .token _ => []

/-- What a scan reads: its 512 samples put together two by two (44_scan_driver.md R130). -/
def scannedBytes (s : State) : List Byte :=
  (List.range 256).map fun a => answerAt s (2 * a) ++ answerAt s (2 * a + 1)

/-! ### Traces -/

/-- `S+` and `S-`: Sync asserted, negated (00_scope.md R9(h)). -/
abbrev syncTo (v : Level) : Event := .set .sync v

/-- `E+` and `E-`: ChipMatrixEnable asserted, negated (00_scope.md R9(h)). -/
abbrev enableTo (v : Level) : Event := .set .chipMatrixEnable v

/-- `C1+` and `C1-` (00_scope.md R9(h)). -/
abbrev clk1To (v : Level) : Event := .set .clk1 v

/-- `C2+` and `C2-` (00_scope.md R9(h)). -/
abbrev clk2To (v : Level) : Event := .set .clk2 v

/-- The trace of a sub-cycle, `D` lasting `d`, with `h0`, `h3` and `h5` standing in the slots 0, 3 and 5, before the
edge or after it (42_phase_sequencer.md R100; 95_test_vectors.md 2.4). -/
def subCycleTrace (order : HookOrder) (d : Nat) (h0 h3 h5 : List Event) : List Event :=
  let at' (h : List Event) (e : Event) : List Event :=
    match order with
    | .hookThenEdge => h ++ [e]
    | .edgeThenHook => [e] ++ h
  at' h0 (clk2To Level.N) ++ [.dwell d, clk1To Level.A, .dwell d, .dwell d] ++
  at' h3 (clk1To Level.N) ++ [.dwell d, .dwell d] ++
  at' h5 (clk2To Level.A) ++ [.dwell d, .dwell d]

/-- `P`, the plain sub-cycle (42_phase_sequencer.md R100). -/
def plainTrace (d : Nat) : List Event :=
  [clk2To Level.N, .dwell d, clk1To Level.A, .dwell d, .dwell d, clk1To Level.N, .dwell d, .dwell d,
   clk2To Level.A, .dwell d, .dwell d]

/-- The complete trace of a transaction (43_cycle_engine.md R121). -/
def wordTrace (order : HookOrder) (d : Nat) (lo hi csn h l : Nibble) : List Event :=
  ([syncTo Level.N, .wrNib lo] ++ plainTrace d) ++
  ([.wrNib hi] ++ plainTrace d) ++
  ([.wrNib csn] ++ subCycleTrace order d [] [enableTo Level.A] []) ++
  subCycleTrace order d [.wrNib 0, enableTo Level.N] [] [.rdNib h] ++
  subCycleTrace order d [] [] [.rdNib l] ++
  plainTrace d ++ plainTrace d ++
  ([syncTo Level.A] ++ plainTrace d)

/-- The complete trace of a scan (44_scan_driver.md R131). -/
def scanTrace (order : HookOrder) (d : Nat) (cs : Nat) (s : State) : List Event :=
  ([syncTo Level.A] ++ plainTrace d) ++
  (List.range 256).flatMap fun a =>
    wordTrace order d (BitVec.ofNat 4 (a % 16)) (BitVec.ofNat 4 (a / 16)) (BitVec.ofNat 4 (cs % 8))
      (answerAt s (2 * a)) (answerAt s (2 * a + 1))

/-- The events of one hook action, the `k`-th sample being the next (30_encoding.md R64; 41_digital_port.md). -/
def actionEvents (s : State) (k : Nat) : HookAction → List Event
  | .setLine l v => [.set l v]
  | .readLine l => [.rd l (inputBit (answerAt s k) l)]
  | .wrNib v => [.wrNib (BitVec.ofNat 4 (v % 16))]
  | .rdNib _ => [.rdNib (answerAt s k)]
  | .update _ => []

/-- How many samples a hook action takes. -/
def actionSamples : HookAction → Nat
  | .readLine _ | .rdNib _ => 1
  | .setLine _ _ | .wrNib _ | .update _ => 0

/-- How many samples a sequence of hook actions takes. -/
def samplesOf (as : List HookAction) : Nat := (as.map actionSamples).sum

/-- The events of a sequence of hook actions, in order. -/
def hookEvents (s : State) (k : Nat) : List HookAction → List Event
  | [] => []
  | a :: later => actionEvents s k a ++ hookEvents s (k + actionSamples a) later

/-- The clock edge of each phase index (42_phase_sequencer.md R90). -/
def edgeEvents : PhaseIndex → List Event
  | 0 => [clk2To Level.N]
  | 1 => [clk1To Level.A]
  | 2 => []
  | 3 => [clk1To Level.N]
  | 4 => []
  | 5 => [clk2To Level.A]
  | 6 => []

/-- The actions a hook map holds at an index, every entry of that index taken (30_encoding.md R64). -/
def actionsAt (hooks : Hooks) (i : PhaseIndex) : List HookAction :=
  hooks.flatMap fun h => if h.1 = i.val then h.2 else []

/-- The trace of `SUBCYC hooks` over a list of phases, the `k`-th sample being the next (42_phase_sequencer.md R100). -/
def slotsTrace (s : State) (hooks : Hooks) : Nat → List PhaseIndex → List Event
  | _, [] => []
  | k, i :: later =>
    (match s.config.hookOrder with
      | .hookThenEdge => hookEvents s k (actionsAt hooks i) ++ edgeEvents i
      | .edgeThenHook => edgeEvents i ++ hookEvents s k (actionsAt hooks i)) ++
    [.dwell s.config.tunit] ++ slotsTrace s hooks (k + samplesOf (actionsAt hooks i)) later

/-- What one event does to the lines (20_memory.md R35; 41_digital_port.md R81, R83). -/
def applyEvent (ls : OutLines (Option Level)) : Event → OutLines (Option Level)
  | .set l v => outSet ls l (some v)
  | .wrNib n => outNibble ls n
  | .rdNib _ | .rd _ _ | .dwell _ => ls

/-- The line levels after a list of events, from given levels (10_state.md R11). -/
def replay (es : List Event) (ls : OutLines (Option Level)) : OutLines (Option Level) := es.foldl applyEvent ls

/-- Whether an event is a dwell. -/
def isDwell : Event → Bool
  | .dwell _ => true
  | .set _ _ | .wrNib _ | .rdNib _ | .rd _ _ => false

/-- An event with the sampled value taken out of it: what an observer who cannot see the input lines sees
(20_memory.md R40). -/
def blindEvent : Event → Event
  | .rdNib _ => .rdNib 0
  | .rd l _ => .rd l false
  | .set l v => .set l v
  | .wrNib n => .wrNib n
  | .dwell d => .dwell d

/-- The clock lines are both asserted. -/
abbrev ClocksOverlap (ls : OutLines (Option Level)) : Prop := ls.clk1 = some Level.A ∧ ls.clk2 = some Level.A

/-- The events that took a state from `s` to `t` are `es`: the trace grew by exactly them (20_memory.md R43). -/
def Performed (s t : State) (es : List Event) : Prop := t.events = s.events ++ es

/-! ### Frames -/

/-- The data registers are unchanged (10_state.md R13). -/
abbrev SameRegisters (s t : State) : Prop := t.cs = s.cs ∧ t.addr = s.addr ∧ t.result = s.result

/-- The driver's counter and buffer are unchanged (10_state.md R19). -/
abbrev SameDriver (s t : State) : Prop := t.counter = s.counter ∧ t.buffer = s.buffer

/-- The interrupt mask is unchanged (41_digital_port.md R86, R87). -/
abbrev SameMask (s t : State) : Prop :=
  t.suppressed = s.suppressed ∧ t.irqEnabled = s.irqEnabled ∧ t.tokensIssued = s.tokensIssued

/-- The platform's parameters and the caller's later requests are unchanged. -/
abbrev SamePlatform (s t : State) : Prop := t.config = s.config ∧ t.requests = s.requests

/-- Exactly `n` samples and `m` draws of time were used up (20_memory.md R40; 70_reset_and_hazards.md R180, R181). -/
abbrev Drew (n m : Nat) (s t : State) : Prop :=
  t.answers = s.answers.drop n ∧ t.sampleCount = s.sampleCount + n ∧
  t.delays = s.delays.drop m ∧ t.delayCount = s.delayCount + m

/-- The block is Idle with this result on its port (30_encoding.md R63). -/
abbrev DoneWith (c : Completion) (t : State) : Prop :=
  t.completion = c ∧ t.pc.kind = .idle ∧ t.pc.stage = none

/-- What the trace gained from `s` to `t`, each event with its position and times. -/
def newStamps (s t : State) : List Stamp := t.trace.drop s.trace.length

/-- The seven phases in order (42_phase_sequencer.md R100). -/
def phases : List PhaseIndex := [0, 1, 2, 3, 4, 5, 6]

/-- A place in a sub-cycle: the phase and the stage (10_state.md R14, R15). -/
abbrev Place := PhaseIndex × Stage

/-- The place of the clock edge of a phase, where it has one (42_phase_sequencer.md R90). -/
def edgePlaces : PhaseIndex → List Place
  | 0 => [(0, .edge)]
  | 1 => [(1, .edge)]
  | 2 => []
  | 3 => [(3, .edge)]
  | 4 => []
  | 5 => [(5, .edge)]
  | 6 => []

/-- The places of the events of a phase slot whose hook performs `n` events (10_state.md R15). -/
def slotPlaces (order : HookOrder) (n : Nat) (i : PhaseIndex) : List Place :=
  (match order with
    | .hookThenEdge => List.replicate n (i, .hook) ++ edgePlaces i
    | .edgeThenHook => edgePlaces i ++ List.replicate n (i, .hook)) ++ [(i, .dwell)]

/-- The places of the events of a cycle step with `n` entry actions and hooks of `n0`, `n3` and `n5` events at the phases
0, 3 and 5 (10_state.md R15; 43_cycle_engine.md R119). -/
def stepPlaces (order : HookOrder) (n n0 n3 n5 : Nat) : List Place :=
  List.replicate n (0, .entry) ++ slotPlaces order n0 0 ++ slotPlaces order 0 1 ++ slotPlaces order 0 2 ++
    slotPlaces order n3 3 ++ slotPlaces order 0 4 ++ slotPlaces order n5 5 ++ slotPlaces order 0 6

/-- A place as the position of kind `k` (10_state.md R14). -/
def placeAt (k : Kind) (p : Place) : Pc := { kind := k, phase := p.1, stage := some p.2 }

/-- The positions of the events of the step of a kind (43_cycle_engine.md R110 to R118). -/
def kindPlaces (order : HookOrder) (k : CycleKind) : List Pc :=
  (match k with
    | .init => stepPlaces order 1 0 0 0
    | .addrLow => stepPlaces order 2 0 0 0
    | .addrHigh => stepPlaces order 1 0 0 0
    | .chipSelect => stepPlaces order 1 0 1 0
    | .dataHigh => stepPlaces order 0 2 0 1
    | .dataLow => stepPlaces order 0 0 0 1
    | .trail1 => stepPlaces order 0 0 0 0
    | .trail2 => stepPlaces order 0 0 0 0
    | .trail3 => stepPlaces order 1 0 0 0).map (placeAt (.cycle k))

/-- The positions of the events of a transaction (43_cycle_engine.md R120, R123). -/
def wordPlaces (order : HookOrder) : List Pc :=
  [CycleKind.addrLow, .addrHigh, .chipSelect, .dataHigh, .dataLow, .trail1, .trail2, .trail3].flatMap (kindPlaces order)

/-- The positions of all new events, in order (10_state.md R14, R15). -/
def newPlaces (s t : State) : List Pc := (newStamps s t).map Stamp.pc

/-- Everything new happened at kind `k`, at these places in order (10_state.md R14, R15). -/
def WentThrough (k : Kind) (places : List Place) (s t : State) : Prop := newPlaces s t = places.map (placeAt k)

/-- How many events a sequence of hook actions performs: one for each port primitive (30_encoding.md R64). -/
def eventsOf (as : List HookAction) : Nat :=
  as.countP fun a =>
    match a with
    | .update _ => false
    | .setLine _ _ | .readLine _ | .wrNib _ | .rdNib _ => true

/-- The places of the events of `SUBCYC hooks` over a list of phases (10_state.md R15; 42_phase_sequencer.md R100). -/
def slotsPlaces (order : HookOrder) (hooks : Hooks) (is : List PhaseIndex) : List Place :=
  is.flatMap fun i => slotPlaces order (eventsOf (actionsAt hooks i)) i

/-- One operation of the phase sequencer or cycle engine was done: it performed `es`, left the output lines at `ls`, took
at least `n` timing units, drew `k` samples, went through `places` at kind `kind`, and changed nothing else but the
position, `x[result]`, the result port (which carries nothing) and the draws. -/
def SequencerDone (kind : Kind) (places : List Place) (es : List Event) (ls : OutLines (Option Level)) (n k : Nat)
    (s t : State) : Prop :=
  Performed s t es ∧ t.lines = ls ∧ s.now + n * s.config.tunit ≤ t.now ∧ WentThrough kind places s t ∧
  t.cs = s.cs ∧ t.addr = s.addr ∧ SameDriver s t ∧ SameMask s t ∧ SamePlatform s t ∧
  Drew k (es.length + es.countP isDwell) s t ∧ DoneWith .nothing t

/-- All the actions of a hook map in the order they run (42_phase_sequencer.md R100). -/
def actionsInOrder (hooks : Hooks) : List HookAction := phases.flatMap (actionsAt hooks)

/-- `x[cs]` after a sequence of hook actions. -/
def csAfter : List HookAction → Option Nat → Option Nat
  | [], c => c
  | .update (.cs n) :: later, _ => csAfter later (some n)
  | _ :: later, c => csAfter later c

/-- `x[addr]` after a sequence of hook actions. -/
def addrAfter : List HookAction → Option Byte → Option Byte
  | [], a => a
  | .update (.addr b) :: later, _ => addrAfter later (some b)
  | _ :: later, a => addrAfter later a

/-- `x[result]` after a sequence of hook actions, the `k`-th sample being the next and `u` the byte an unwritten `x[result]`
reads as (43_cycle_engine.md R114, R115). -/
def resultAfter (s : State) (u : Byte) : Nat → List HookAction → Option Byte → Option Byte
  | _, [], r => r
  | k, .update (.result b) :: later, _ => resultAfter s u k later (some b)
  | k, .rdNib .resultHigh :: later, _ => resultAfter s u (k + 1) later (some (answerAt s k ++ (0 : Nibble)))
  | k, .rdNib .resultLow :: later, r =>
    resultAfter s u (k + 1) later (some (r.getD u ||| (answerAt s k).setWidth 8))
  | k, a :: later, r => resultAfter s u (k + actionSamples a) later r

/-! ### Invariants -/

/-- Between operations the block is Idle and the driver's buffer is flushed (30_encoding.md R63; 10_state.md R19(b)). -/
def Settled (s : State) : Prop := s.pc.kind = .idle ∧ s.pc.stage = none ∧ s.buffer = []

/-- One event is timed as it should be: it does not end before it starts, and a wait lasts at least what was asked
(40_timer.md R71, R76: lower bounds only). -/
def WellTimed (st : Stamp) : Prop :=
  match st.event with
  | .dwell d => st.start + d ≤ st.stop
  | .set _ _ | .wrNib _ | .rdNib _ | .rd _ _ => st.start ≤ st.stop

/-- The trace, newest first, lies in the past of `now` in strict chronological order (20_memory.md R43), every event
well timed. -/
def InOrder : Nat → List Stamp → Prop
  | _, [] => True
  | now, st :: earlier => st.stop ≤ now ∧ WellTimed st ∧ InOrder st.start earlier

/-- The trace of the state is in order up to its clock. -/
def Timely (s : State) : Prop := InOrder s.now s.log

/-- The output latches hold exactly what the trace says was written to them (10_state.md R11). -/
def LinesTold (s : State) : Prop := s.lines = replay s.events s.config.lineReset

/-- The outstanding token was handed out (41_digital_port.md R86). -/
def TokenIssued (s : State) : Prop := ∀ p, s.suppressed = some p → p.token < s.tokensIssued

/-- Two results of the same form: the same but for the sampled values. -/
def sameForm : Completion → Completion → Prop
  | .nothing, c => c = .nothing
  | .token t, c => c = .token t
  | .level _, c => ∃ b, c = .level b
  | .nibble _, c => ∃ v, c = .nibble v
  | .byte _, c => ∃ b, c = .byte b
  | .bytes bs, c => ∃ cs, c = .bytes cs ∧ cs.length = bs.length

/-- Two states that differ only in what the input lines show and have shown: the coming answers, `x[result]`, the
bytes and levels returned, and the sampled values in the trace (20_memory.md R40). -/
def SameButInputs (s t : State) : Prop :=
  t = { s with
    answers := t.answers, sampleCount := t.sampleCount, result := t.result, buffer := t.buffer,
    completion := t.completion, log := t.log } ∧
  t.buffer.length = s.buffer.length ∧ sameForm s.completion t.completion ∧
  t.log.map (fun st => { st with event := blindEvent st.event }) =
    s.log.map (fun st => { st with event := blindEvent st.event })

end Sys2Proof.Safety
end

