-- ==== Sys2Proof/Certificates/Slice0/Obligations.lean ====
section
/-! DEFINITION. The statements for the provers. Each docstring names the rule of spec/ it formalises. -/

open Sys2Proof Sys2Proof.Machine Sys2Proof.Safety

/-! ### Encoding and decoding -/

/-- 30_encoding.md R51, R58, R63: the request of every well-formed operation decodes to that operation. -/
def Obligations.EncodeThenDecode : Prop :=
  ∀ i : Instr, i.WellFormed → decode (encode i) = .ok i

/-- 30_encoding.md R59: what the decoder accepts is an operation the spec defines, under its own byte, and depends on no
port that the operation does not use. -/
def Obligations.DecodedIsWellFormed : Prop :=
  ∀ (r : Request) (i : Instr), decode r = .ok i →
    i.WellFormed ∧ opcode i = r.op ∧ decode { op := r.op, ports := portsOf i } = .ok i

/-- 30_encoding.md R51, R59(a): every byte outside the 26 of the table is rejected, whatever the ports carry. -/
def Obligations.ReservedBytesRejected : Prop :=
  ∀ r : Request,
    r.op.toNat ∉ [0x00, 0x01, 0x02, 0x03, 0x04, 0x05, 0x06, 0x10, 0x11, 0x12, 0x13, 0x14, 0x15, 0x16, 0x18,
      0x20, 0x21, 0x22, 0x23, 0x24, 0x25, 0x26, 0x27, 0x28, 0x30, 0x31] →
    decode r = .error (.reserved r.op)

/-- 30_encoding.md R58: one byte of each family, with its operands on the ports. -/
def Obligations.TableBytesDecode : Prop :=
  decode { op := 0x00, ports := { d := 200 } } = .ok (.waitns 200) ∧
  decode { op := 0x01, ports := { outName := .out .sync, level := Level.A } } = .ok (.setline (.out .sync) Level.A) ∧
  decode { op := 0x06, ports := { token := 3 } } = .ok (.imrestore 3) ∧
  decode { op := 0x16 } = .ok .phase6 ∧
  decode { op := 0x18 } = .ok (.subcyc []) ∧
  decode { op := 0x24 } = .ok .datahigh ∧
  decode { op := 0x30, ports := { cs := 13, addr := 0x3C } } = .ok (.readword 13 0x3C) ∧
  decode { op := 0x31, ports := { cs := 5 } } = .ok (.scan 5)

/-! ### The step -/

/-- 30_encoding.md R63, R59; 70_reset_and_hazards.md R171: an Idle block with no request does nothing; with a request it
runs the operation the request decodes to, the request taken off the list; a request that does not decode is refused by
name; a block that is not Idle accepts nothing. -/
def Obligations.StepRunsTheNextRequest : Prop :=
  ∀ s : State,
    (s.pc.kind = .idle → s.requests = [] → step s = .next s) ∧
    (∀ r later i, s.pc.kind = .idle → s.requests = r :: later → decode r = .ok i →
      step s = exec i { s with requests := later }) ∧
    (∀ r later b, s.pc.kind = .idle → s.requests = r :: later → decode r = .error (.reserved b) →
      step s = .refused (.reservedOperation b)) ∧
    (∀ r later d, s.pc.kind = .idle → s.requests = r :: later → decode r = .error (.illFormed d) →
      step s = .refused (.illFormed d)) ∧
    (∀ k, s.pc.kind = .cycle k → step s = .refused .busy)

/-- 60_exceptions.md R150, R165: no operation and no step faults. -/
def Obligations.NothingFaults : Prop :=
  (∀ (i : Instr) (s : State) (f : Fault), exec i s ≠ .fault f) ∧ ∀ (s : State) (f : Fault), step s ≠ .fault f

/-- 60_exceptions.md R150, R165; 40_timer.md R75(c); 30_encoding.md R59; 41_digital_port.md R87: under a clock that passes
every deadline, every well-formed operation completes, from every state, but for a nested IMSUPPRESS and a misused token,
and so does the spin loop of every wait in it. That every wait of the model ends is that fairness, built in (log 12). -/
def Obligations.OperationsComplete : Prop :=
  ∀ (clock : Nat → Nat) (i : Instr) (s : State), ClockFair clock → i.WellFormed →
    (i = .imsuppress → s.suppressed = none) →
    (∀ tok, i = .imrestore tok → ∃ p, s.suppressed = some p ∧ p.token = tok) →
    ∃ t, exec i s = .next t ∧ t.pc.kind = .idle ∧
      ∀ st ∈ newStamps s t, ∀ d, st.event = .dwell d →
        ∃ n u, pollLoop st.start d ((List.range n).map clock) = some u

/-- 60_exceptions.md R165: what is refused is an operand the spec does not define, a nested suppression or a misused
token, and nothing else. -/
def Obligations.OnlyTheseAreRefused : Prop :=
  ∀ (i : Instr) (s : State) (r : Refusal), exec i s = .refused r →
    (∃ d, i.defect = some d ∧ r = .illFormed d) ∨
    (i = .imsuppress ∧ s.suppressed ≠ none ∧ r = .nestedSuppress) ∨
    (∃ tok, i = .imrestore tok ∧ (∀ p, s.suppressed = some p → p.token ≠ tok) ∧ r = .tokenMisuse tok)

/-! ### Reset and launch -/

/-- 10_state.md R21; 70_reset_and_hazards.md R170: what reset leaves. -/
def Obligations.ResetLeavesUnwritten : Prop :=
  StartFromReset State.reset ∧ StartIdle State.reset ∧ State.reset.counter = none ∧ State.reset.buffer = [] ∧
  State.reset.suppressed = none ∧ State.reset.trace = []

/-- 70_reset_and_hazards.md R171: after reset the block does nothing until an operation is requested. That no request
stands at reset is the model's reading (log 3). -/
def Obligations.ResetWaitsForARequest : Prop := step State.reset = .next State.reset

/-- 60_exceptions.md R151; 41_digital_port.md R85; 70_reset_and_hazards.md R193: a launch that acquires the port is the
block at reset; one that does not is the fatal failure, and there is no run. -/
def Obligations.LaunchAcquiresOrFails : Prop :=
  ∀ acquired : Bool,
    (PortAcquired acquired → launch acquired = .next State.reset) ∧
    (¬ PortAcquired acquired → launch acquired = .fault .ioAcquireFailure ∧ ∀ s, launch acquired ≠ .next s)

/-- 00_scope.md R7: the open parameters of the machine are within the bounds the spec sets, and the exit status of the
fatal failure is not zero. -/
def Obligations.ParametersInBounds : Prop :=
  Config.machine.WellFormed ∧ Config.machine.hookOrder = .hookThenEdge ∧
  ∃ n, exitStatus Config.machine (launch false) = some n ∧ n ≠ 0

/-- 70_reset_and_hazards.md R172(d), R172(e); 95_test_vectors.md Program 1: after the first INIT only Sync and the clocks
are written.
That the waits end is `ClockFair` (40_timer.md R75(c)), built in (log 12). -/
def Obligations.FirstInitLeavesDataUnwritten : Prop :=
  ∃ t, exec .init State.reset = .next t ∧
    t.lines = { Config.unwrittenLines with sync := some Level.A, clk1 := some Level.N, clk2 := some Level.A } ∧
    SameRegisters State.reset t

/-! ### The timer -/

/-- 70_reset_and_hazards.md R180; 40_timer.md R71, R75(b), R75(c), R76: WAITNS completes, performs one dwell, lasts `d` rounded
up to the clock's tick plus a draw after its gap, and changes nothing else; every gap and every duration from there on is
possible, so there is no upper bound; and under any clock that passes every deadline it ends where the spin loop ends. The
rounding is log 13, the draws are log 5, and that a wait always ends is log 12. -/
def Obligations.WaitnsLastsDPlusDraw : Prop :=
  ∀ (d : Nat) (s : State),
    ∃ m, tickOf s.config ∣ m ∧ d ≤ m ∧ m < d + tickOf s.config ∧
      (∃ t, exec (.waitns d) s = .next t ∧ Performed s t [.dwell d] ∧
        t.now = s.now + delayAt s 0 + m + delayAt s 1 ∧
        (newStamps s t).map (fun st => (st.start, st.stop)) =
          [(s.now + delayAt s 0, s.now + delayAt s 0 + m + delayAt s 1)] ∧
        t.lines = s.lines ∧ SameRegisters s t ∧ SameDriver s t ∧ SameMask s t ∧ SamePlatform s t ∧
        t.pc.phase = s.pc.phase ∧ Drew 0 2 s t ∧ DoneWith .nothing t) ∧
      (∀ g n : Nat, m ≤ n →
        ∃ e t, exec (.waitns d) { s with delays := g :: e :: s.delays } = .next t ∧ t.now = s.now + g + n) ∧
      ∀ clock : Nat → Nat, ClockFair clock → (∀ n, OnTheClock s [clock n]) →
        ∃ e t n, exec (.waitns d) { s with delays := 0 :: e :: s.delays } = .next t ∧
          pollLoop s.now d ((List.range n).map clock) = some t.now

/-- 40_timer.md R71: the spin loop returns at `t` exactly when `t` is the first reading at or past the deadline. -/
def Obligations.PollLoopStopsAtTheDeadline : Prop :=
  ∀ (t0 d t : Nat) (readings : List Nat),
    pollLoop t0 d readings = some t ↔
      t0 + d ≤ t ∧ ∃ before after, readings = before ++ t :: after ∧ ∀ u ∈ before, u < t0 + d

/-- 40_timer.md R71, R76: whatever reading of the platform's clock the spin loop returns at, WAITNS does the same under some
overshoot.
That the waits end is `ClockFair` (40_timer.md R75(c)), built in (log 12). -/
def Obligations.WaitnsMatchesThePollLoop : Prop :=
  ∀ (d t : Nat) (s : State) (readings : List Nat), OnTheClock s readings → pollLoop s.now d readings = some t →
    ∃ e u, exec (.waitns d) { s with delays := 0 :: e :: s.delays } = .next u ∧ u.now = t ∧ Performed s u [.dwell d]

/-- 40_timer.md R75(c): under a fair clock the spin loop ends, and not before the deadline. -/
def Obligations.FairClockEndsTheWait : Prop :=
  ∀ (clock : Nat → Nat) (t0 d : Nat), ClockFair clock →
    ∃ n t, pollLoop t0 d ((List.range n).map clock) = some t ∧ t0 + d ≤ t

/-- 40_timer.md R75(b): with a clock that ticks every `tick`, the spin loop lasts at least `d` rounded up to a tick; and so
does WAITNS with the tick of the platform's clock. How the model rounds is log 13.
That the waits end is `ClockFair` (40_timer.md R75(c)), built in (log 12). -/
def Obligations.CoarseClockRoundsUp : Prop :=
  (∀ (tick n t0 d t : Nat) (readings : List Nat), 0 < tick → t0 = n * tick → (∀ u ∈ readings, tick ∣ u) →
    pollLoop t0 d readings = some t → t0 + (d + tick - 1) / tick * tick ≤ t) ∧
  ∀ (d : Nat) (s : State), ∃ t, exec (.waitns d) s = .next t ∧
    s.now + (d + tickOf s.config - 1) / tickOf s.config * tickOf s.config ≤ t.now ∧ s.config.clockRes ≤ tickOf s.config

/-! ### The port -/

/-- 41_digital_port.md R81: SETLINE writes its one line, whatever level the line had, in one event, and nothing else; an
input line is refused. -/
def Obligations.SetlineWritesOneLine : Prop :=
  (∀ (l : OutLine) (v : Level) (s : State),
    opcode (.setline (.out l) v) = 0x01 ∧
    ∃ t, exec (.setline (.out l) v) s = .next t ∧ Performed s t [.set l v] ∧
      outGet t.lines l = some v ∧ (∀ m, m ≠ l → outGet t.lines m = outGet s.lines m) ∧
      SameRegisters s t ∧ SameDriver s t ∧ SameMask s t ∧ SamePlatform s t ∧
      t.pc.phase = s.pc.phase ∧ t.now = s.now + delayAt s 0 ∧ Drew 0 1 s t ∧ DoneWith .nothing t) ∧
  ∀ (l : InLine) (v : Level) (s : State),
    exec (.setline (.inp l) v) s = .refused (.illFormed (.notAnOutputLine l))

/-- 41_digital_port.md R82: READLINE returns what the environment shows on its line, in one event, and writes nothing;
either level is possible; an output line is refused. -/
def Obligations.ReadlineReturnsTheShownLevel : Prop :=
  (∀ (l : InLine) (s : State), opcode (.readline (.inp l)) = 0x02 ∧
    (∃ t, exec (.readline (.inp l)) s = .next t ∧
      Performed s t [.rd l (inputBit (answerAt s 0) l)] ∧ t.lines = s.lines ∧ SameRegisters s t ∧ SameDriver s t ∧
      SameMask s t ∧ SamePlatform s t ∧ t.pc.phase = s.pc.phase ∧ t.now = s.now + delayAt s 0 ∧ Drew 1 1 s t ∧
      DoneWith (.level (inputBit (answerAt s 0) l)) t) ∧
    ∀ b : Level, ∃ v t, exec (.readline (.inp l)) { s with answers := v :: s.answers } = .next t ∧
      Performed s t [.rd l b] ∧ t.completion = .level b) ∧
  ∀ (l : OutLine) (s : State), exec (.readline (.out l)) s = .refused (.illFormed (.notAnInputLine l))

/-- 41_digital_port.md R83; 20_memory.md R35: WRNIB puts bit i of its low four bits on DataOuti, all four in one event,
and writes nothing else; bits above 3 are dropped. -/
def Obligations.WrnibDrivesTheFourLines : Prop :=
  ∀ (v : Nat) (s : State), opcode (.wrnib v) = 0x03 ∧
    ∃ t, exec (.wrnib v) s = .next t ∧ Performed s t [.wrNib (BitVec.ofNat 4 (v % 16))] ∧
      t.lines = { s.lines with
        dataOut0 := some (v.testBit 0), dataOut1 := some (v.testBit 1),
        dataOut2 := some (v.testBit 2), dataOut3 := some (v.testBit 3) } ∧
      SameRegisters s t ∧ SameDriver s t ∧ SameMask s t ∧ SamePlatform s t ∧
      t.pc.phase = s.pc.phase ∧ t.now = s.now + delayAt s 0 ∧ Drew 0 1 s t ∧ DoneWith .nothing t

/-- 41_digital_port.md R84; 20_memory.md R40: RDNIB returns the shown nibble in one event and writes nothing; every
nibble is possible. -/
def Obligations.RdnibReturnsTheShownNibble : Prop :=
  ∀ s : State, opcode .rdnib = 0x04 ∧
    (∃ t, exec .rdnib s = .next t ∧ Performed s t [.rdNib (answerAt s 0)] ∧ t.lines = s.lines ∧ SameRegisters s t ∧
      SameDriver s t ∧ SameMask s t ∧ SamePlatform s t ∧ t.pc.phase = s.pc.phase ∧ t.now = s.now + delayAt s 0 ∧
      Drew 1 1 s t ∧ DoneWith (.nibble (answerAt s 0)) t) ∧
    ∀ v : Nibble, ∃ t, exec .rdnib { s with answers := v :: s.answers } = .next t ∧
      Performed s t [.rdNib v] ∧ t.completion = .nibble v

/-! ### The interrupt mask -/

/-- 41_digital_port.md R86; 93_implementation_defined.md U6: with no token outstanding IMSUPPRESS returns a fresh token that
captures the enabled set, disables delivery where the platform allows it, and performs no event. That tokens are numbers
counted up is log 8, the set of labels log 7, and the one draw of time log 5. -/
def Obligations.ImsuppressCapturesTheSet : Prop :=
  ∀ s : State, s.suppressed = none →
    ∃ t, exec .imsuppress s = .next t ∧ Performed s t [] ∧
      (∃ p, t.suppressed = some p ∧ p.captured = s.irqEnabled ∧ p.token = s.tokensIssued ∧
        DoneWith (.token p.token) t) ∧
      t.tokensIssued = s.tokensIssued + 1 ∧
      (s.config.maskEffective = true → t.irqEnabled = []) ∧
      (s.config.maskEffective = false → t.irqEnabled = s.irqEnabled) ∧
      t.lines = s.lines ∧ SameRegisters s t ∧ SameDriver s t ∧ SamePlatform s t ∧ t.pc.phase = s.pc.phase ∧
      s.now ≤ t.now ∧ Drew 0 1 s t

/-- 41_digital_port.md R87; 93_implementation_defined.md U6: IMRESTORE of the outstanding token enables exactly the
captured set again where the platform allows it, uses the token up, and performs no event. That tokens are numbers is log 8,
the set of labels log 7, and the one draw of time log 5. -/
def Obligations.ImrestoreEnablesTheCapturedSet : Prop :=
  ∀ (s : State) (p : Suppression), s.suppressed = some p →
    ∃ t, exec (.imrestore p.token) s = .next t ∧ Performed s t [] ∧ t.suppressed = none ∧
      (s.config.maskEffective = true → t.irqEnabled = p.captured) ∧
      (s.config.maskEffective = false → t.irqEnabled = s.irqEnabled) ∧ t.tokensIssued = s.tokensIssued ∧
      t.lines = s.lines ∧ SameRegisters s t ∧ SameDriver s t ∧ SamePlatform s t ∧ t.pc.phase = s.pc.phase ∧
      s.now ≤ t.now ∧ Drew 0 1 s t ∧ DoneWith .nothing t

/-- 41_digital_port.md R87; 60_exceptions.md R157: a nested IMSUPPRESS is refused; so is a token with no suppression
outstanding, and a token that is not the outstanding one. -/
def Obligations.TokenMisuseRefused : Prop :=
  ∀ s : State,
    (∀ p, s.suppressed = some p → exec .imsuppress s = .refused .nestedSuppress) ∧
    (∀ tok, s.suppressed = none → exec (.imrestore tok) s = .refused (.tokenMisuse tok)) ∧
    ∀ p tok, s.suppressed = some p → tok ≠ p.token → exec (.imrestore tok) s = .refused (.tokenMisuse tok)

/-- 41_digital_port.md R87; 44_scan_driver.md R133; 93_implementation_defined.md U7: from IMSUPPRESS, through any run
without an IMRESTORE, to IMRESTORE of its token: the enabled set is what it was, and the token is refused after any run from
there, later IMSUPPRESSes included. That tokens are numbers counted up is log 8. -/
def Obligations.SuppressThenRestore : Prop :=
  ∀ (is : List Instr) (s t u : State) (tok : Nat), exec .imsuppress s = .next t → t.completion = .token tok →
    (∀ k, .imrestore k ∉ is) → Runs t is u →
    ∃ v, exec (.imrestore tok) u = .next v ∧ v.irqEnabled = s.irqEnabled ∧
      ∀ (later : List Instr) (w : State), Runs v later w → exec (.imrestore tok) w = .refused (.tokenMisuse tok)

/-! ### The phase sequencer

Every completion here rests on `ClockFair` (40_timer.md R75(c)), which the model's wait has built in (log 12). -/

/-- 42_phase_sequencer.md R90 to R97: each phase performs its clock edge, if it has one, then a dwell of one timing unit;
no other line and no register changes. That the events of a phase requested on its own stand at the kind the state had is
the model's choice (log 9).
That the waits end is `ClockFair` (40_timer.md R75(c)), built in (log 12). -/
def Obligations.PhasesEdgeThenDwell : Prop :=
  ∀ s : State,
    (opcode .phase0 = 0x10 ∧ ∃ t, exec .phase0 s = .next t ∧ t.result = s.result ∧ t.pc.phase = 0 ∧
      SequencerDone s.pc.kind [(0, .edge), (0, .dwell)] [clk2To Level.N, .dwell s.config.tunit]
        { s.lines with clk2 := some Level.N } 1 0 s t) ∧
    (opcode .phase1 = 0x11 ∧ ∃ t, exec .phase1 s = .next t ∧ t.result = s.result ∧ t.pc.phase = 1 ∧
      SequencerDone s.pc.kind [(1, .edge), (1, .dwell)] [clk1To Level.A, .dwell s.config.tunit]
        { s.lines with clk1 := some Level.A } 1 0 s t) ∧
    (opcode .phase2 = 0x12 ∧ ∃ t, exec .phase2 s = .next t ∧ t.result = s.result ∧ t.pc.phase = 2 ∧
      SequencerDone s.pc.kind [(2, .dwell)] [.dwell s.config.tunit] s.lines 1 0 s t) ∧
    (opcode .phase3 = 0x13 ∧ ∃ t, exec .phase3 s = .next t ∧ t.result = s.result ∧ t.pc.phase = 3 ∧
      SequencerDone s.pc.kind [(3, .edge), (3, .dwell)] [clk1To Level.N, .dwell s.config.tunit]
        { s.lines with clk1 := some Level.N } 1 0 s t) ∧
    (opcode .phase4 = 0x14 ∧ ∃ t, exec .phase4 s = .next t ∧ t.result = s.result ∧ t.pc.phase = 4 ∧
      SequencerDone s.pc.kind [(4, .dwell)] [.dwell s.config.tunit] s.lines 1 0 s t) ∧
    (opcode .phase5 = 0x15 ∧ ∃ t, exec .phase5 s = .next t ∧ t.result = s.result ∧ t.pc.phase = 5 ∧
      SequencerDone s.pc.kind [(5, .edge), (5, .dwell)] [clk2To Level.A, .dwell s.config.tunit]
        { s.lines with clk2 := some Level.A } 1 0 s t) ∧
    (opcode .phase6 = 0x16 ∧ ∃ t, exec .phase6 s = .next t ∧ t.result = s.result ∧ t.pc.phase = 6 ∧
      SequencerDone s.pc.kind [(6, .dwell)] [.dwell s.config.tunit] s.lines 1 0 s t)

/-- 42_phase_sequencer.md R100, R101; 30_encoding.md R64: SUBCYC with any hook map performs the seven slots in order, each
with its hook and its edge in the order of HOOK_ORDER and then a dwell; the lines are what those events write, the
registers what the hooks write. A hook that reads an unwritten `x[result]` reads some byte (log 2). That the events stand at
the kind the state had and that the phase ends at 6 is the model's choice (log 9), and so are the list of entries and the
actions a hook is made of (log 11).
That the waits end is `ClockFair` (40_timer.md R75(c)), built in (log 12). -/
def Obligations.SubcycRunsSevenSlots : Prop :=
  ∀ (hooks : Hooks) (s : State), (∀ h ∈ hooks, h.1 < 7) → (hooks.map Prod.fst).Nodup →
    ∃ (u : Byte) (t : State), exec (.subcyc hooks) s = .next t ∧
      Performed s t (slotsTrace s hooks 0 phases) ∧
      t.lines = replay (slotsTrace s hooks 0 phases) s.lines ∧
      t.cs = csAfter (actionsInOrder hooks) s.cs ∧ t.addr = addrAfter (actionsInOrder hooks) s.addr ∧
      t.result = resultAfter s u 0 (actionsInOrder hooks) s.result ∧
      s.now + 7 * s.config.tunit ≤ t.now ∧ t.pc.phase = 6 ∧ WentThrough s.pc.kind (slotsPlaces s.config.hookOrder hooks phases) s t ∧
      SameDriver s t ∧ SameMask s t ∧ SamePlatform s t ∧
      Drew (samplesOf (actionsInOrder hooks))
        ((slotsTrace s hooks 0 phases).length + (slotsTrace s hooks 0 phases).countP isDwell) s t ∧
      DoneWith .nothing t

/-- 42_phase_sequencer.md R100: with no hooks SUBCYC is the plain sub-cycle, seven dwells and four clock edges.
This is the completion of the empty map alone. That the events stand at the kind the state had is the model's choice
(log 9).
That the waits end is `ClockFair` (40_timer.md R75(c)), built in (log 12). -/
def Obligations.PlainSubcycTrace : Prop :=
  ∀ s : State, ∃ t, exec (.subcyc []) s = .next t ∧ t.result = s.result ∧
    SequencerDone s.pc.kind (stepPlaces s.config.hookOrder 0 0 0 0) (plainTrace s.config.tunit)
      { s.lines with clk1 := some Level.N, clk2 := some Level.A } 7 0 s t

/-- 30_encoding.md R59(b), R64: a hook at an index of 7 or more, or two hooks at one index, are refused. -/
def Obligations.SubcycRefusesNoMap : Prop :=
  ∀ (hooks : Hooks) (s : State), (∃ h ∈ hooks, 7 ≤ h.1) ∨ ¬ (hooks.map Prod.fst).Nodup →
    ∃ d, exec (.subcyc hooks) s = .refused (.illFormed d)

/-! ### The cycle engine

Every completion here rests on `ClockFair` (40_timer.md R75(c)), which the model's wait has built in (log 12). -/

/-- 43_cycle_engine.md R110: INIT asserts Sync, then a plain sub-cycle; DataOut and ChipMatrixEnable are not written.
That the waits end is `ClockFair` (40_timer.md R75(c)), built in (log 12). -/
def Obligations.InitAssertsSync : Prop :=
  ∀ s : State, opcode .init = 0x20 ∧
    ∃ t, exec .init s = .next t ∧ t.result = s.result ∧
      SequencerDone (.cycle .init) (stepPlaces s.config.hookOrder 1 0 0 0) 
        ([syncTo Level.A] ++ plainTrace s.config.tunit)
        { s.lines with sync := some Level.A, clk1 := some Level.N, clk2 := some Level.A } 7 0 s t

/-- 43_cycle_engine.md R111: ADDRLOW negates Sync, drives the low nibble of `x[addr]`, then a plain sub-cycle. While
`x[addr]` is unwritten the nibble is any one (log 2).
That the waits end is `ClockFair` (40_timer.md R75(c)), built in (log 12). -/
def Obligations.AddrlowDrivesTheLowNibble : Prop :=
  ∀ s : State, opcode .addrlow = 0x21 ∧
    ∃ (n : Nibble) (t : State), (∀ a, s.addr = some a → n = BitVec.ofNat 4 (a.toNat % 16)) ∧
      exec .addrlow s = .next t ∧ t.result = s.result ∧
      SequencerDone (.cycle .addrLow) (stepPlaces s.config.hookOrder 2 0 0 0) 
        ([syncTo Level.N, .wrNib n] ++ plainTrace s.config.tunit)
        { dataOut0 := some (n.getLsbD 0), dataOut1 := some (n.getLsbD 1), dataOut2 := some (n.getLsbD 2),
          dataOut3 := some (n.getLsbD 3), clk1 := some Level.N, clk2 := some Level.A, sync := some Level.N,
          chipMatrixEnable := s.lines.chipMatrixEnable } 7 0 s t

/-- 43_cycle_engine.md R112: ADDRHIGH drives the high nibble of `x[addr]`, then a plain sub-cycle. While `x[addr]` is
unwritten the nibble is any one (log 2).
That the waits end is `ClockFair` (40_timer.md R75(c)), built in (log 12). -/
def Obligations.AddrhighDrivesTheHighNibble : Prop :=
  ∀ s : State, opcode .addrhigh = 0x22 ∧
    ∃ (n : Nibble) (t : State), (∀ a, s.addr = some a → n = BitVec.ofNat 4 (a.toNat / 16)) ∧
      exec .addrhigh s = .next t ∧ t.result = s.result ∧
      SequencerDone (.cycle .addrHigh) (stepPlaces s.config.hookOrder 1 0 0 0) ([.wrNib n] ++ plainTrace s.config.tunit)
        { dataOut0 := some (n.getLsbD 0), dataOut1 := some (n.getLsbD 1), dataOut2 := some (n.getLsbD 2),
          dataOut3 := some (n.getLsbD 3), clk1 := some Level.N, clk2 := some Level.A, sync := s.lines.sync,
          chipMatrixEnable := s.lines.chipMatrixEnable } 7 0 s t

/-- 43_cycle_engine.md R113; 30_encoding.md R53: CHIPSEL drives `x[cs] mod 8`, DataOut3 at 0, and asserts
ChipMatrixEnable in slot 3, under either HOOK_ORDER. While `x[cs]` is unwritten its value is any one (log 2).
That the waits end is `ClockFair` (40_timer.md R75(c)), built in (log 12). -/
def Obligations.ChipselDrivesCsMod8 : Prop :=
  ∀ s : State, opcode .chipsel = 0x23 ∧
    ∃ (c : Nat) (t : State), (∀ n, s.cs = some n → c = n) ∧
      exec .chipsel s = .next t ∧ t.result = s.result ∧
      SequencerDone (.cycle .chipSelect) (stepPlaces s.config.hookOrder 1 0 1 0)
        ([.wrNib (BitVec.ofNat 4 (c % 8))] ++
          subCycleTrace s.config.hookOrder s.config.tunit [] [enableTo Level.A] [])
        { dataOut0 := some (c.testBit 0), dataOut1 := some (c.testBit 1), dataOut2 := some (c.testBit 2),
          dataOut3 := some false, clk1 := some Level.N, clk2 := some Level.A, sync := s.lines.sync,
          chipMatrixEnable := some Level.A } 7 0 s t

/-- 43_cycle_engine.md R114: DATAHIGH clears the output nibble and negates ChipMatrixEnable in slot 0, samples in slot 5,
and assigns all eight bits of `x[result]`, under either HOOK_ORDER.
That the waits end is `ClockFair` (40_timer.md R75(c)), built in (log 12). -/
def Obligations.DatahighAssignsTheHighNibble : Prop :=
  ∀ s : State, opcode .datahigh = 0x24 ∧
    ∃ t, exec .datahigh s = .next t ∧ t.result = some (answerAt s 0 ++ (0 : Nibble)) ∧
      SequencerDone (.cycle .dataHigh) (stepPlaces s.config.hookOrder 0 2 0 1)
        (subCycleTrace s.config.hookOrder s.config.tunit [.wrNib 0, enableTo Level.N] [] [.rdNib (answerAt s 0)])
        { dataOut0 := some false, dataOut1 := some false, dataOut2 := some false, dataOut3 := some false,
          clk1 := some Level.N, clk2 := some Level.A, sync := s.lines.sync,
          chipMatrixEnable := some Level.N } 7 1 s t

/-- 43_cycle_engine.md R115: DATALOW samples in slot 5 and ORs the nibble into `x[result]`, under either HOOK_ORDER. While
`x[result]` is unwritten the byte it is ORed into is any one (log 2).
That the waits end is `ClockFair` (40_timer.md R75(c)), built in (log 12). -/
def Obligations.DatalowOrsTheLowNibble : Prop :=
  ∀ s : State, opcode .datalow = 0x25 ∧
    ∃ (r : Byte) (t : State), (∀ b, s.result = some b → r = b) ∧
      exec .datalow s = .next t ∧ t.result = some (r ||| (answerAt s 0).setWidth 8) ∧
      SequencerDone (.cycle .dataLow) (stepPlaces s.config.hookOrder 0 0 0 1)
        (subCycleTrace s.config.hookOrder s.config.tunit [] [] [.rdNib (answerAt s 0)])
        { s.lines with clk1 := some Level.N, clk2 := some Level.A } 7 1 s t

/-- 43_cycle_engine.md R116, R117, R118: TRAIL1 and TRAIL2 are plain sub-cycles; TRAIL3 asserts Sync first.
That the waits end is `ClockFair` (40_timer.md R75(c)), built in (log 12). -/
def Obligations.TrailStepsRun : Prop :=
  ∀ s : State,
    opcode .trail1 = 0x26 ∧ opcode .trail2 = 0x27 ∧ opcode .trail3 = 0x28 ∧
    (∃ t, exec .trail1 s = .next t ∧ t.result = s.result ∧
      SequencerDone (.cycle .trail1) (stepPlaces s.config.hookOrder 0 0 0 0) (plainTrace s.config.tunit)
        { s.lines with clk1 := some Level.N, clk2 := some Level.A } 7 0 s t) ∧
    (∃ t, exec .trail2 s = .next t ∧ t.result = s.result ∧
      SequencerDone (.cycle .trail2) (stepPlaces s.config.hookOrder 0 0 0 0) (plainTrace s.config.tunit)
        { s.lines with clk1 := some Level.N, clk2 := some Level.A } 7 0 s t) ∧
    (∃ t, exec .trail3 s = .next t ∧ t.result = s.result ∧
      SequencerDone (.cycle .trail3) (stepPlaces s.config.hookOrder 1 0 0 0) 
        ([syncTo Level.A] ++ plainTrace s.config.tunit)
        { s.lines with sync := some Level.A, clk1 := some Level.N, clk2 := some Level.A } 7 0 s t)

/-- 43_cycle_engine.md R121: the complete trace of a transaction under either HOOK_ORDER, 98 events of which 56 are
dwells.
That the waits end is `ClockFair` (40_timer.md R75(c)), built in (log 12). -/
def Obligations.ReadwordTrace : Prop :=
  ∀ (cs : Nat) (a : Byte) (s : State), ∃ t es, exec (.readword cs a) s = .next t ∧ Performed s t es ∧
    es = wordTrace s.config.hookOrder s.config.tunit (BitVec.ofNat 4 (a.toNat % 16)) (BitVec.ofNat 4 (a.toNat / 16))
      (BitVec.ofNat 4 (cs % 8)) (answerAt s 0) (answerAt s 1) ∧
    es.length = 98 ∧ es.countP isDwell = 56

/-- 43_cycle_engine.md R120; 10_state.md R24: a transaction returns `(h << 4) | l`, whatever the operands and the state,
leaves the lines at rest and the operands in `x[cs]` and `x[addr]`, lasts at least 56 timing units, and changes nothing
else.
That the waits end is `ClockFair` (40_timer.md R75(c)), built in (log 12). -/
def Obligations.ReadwordReturnsTheSamples : Prop :=
  ∀ (cs : Nat) (a : Byte) (s : State), opcode (.readword cs a) = 0x30 ∧
    ∃ t, exec (.readword cs a) s = .next t ∧ DoneWith (.byte (answerAt s 0 ++ answerAt s 1)) t ∧
      t.result = some (answerAt s 0 ++ answerAt s 1) ∧ t.cs = some cs ∧ t.addr = some a ∧ t.lines = restLines ∧
      s.now + 56 * s.config.tunit ≤ t.now ∧ SameDriver s t ∧ SameMask s t ∧ SamePlatform s t ∧ Drew 2 154 s t

/-- 43_cycle_engine.md R123, R120; 10_state.md R14, R15; 42_phase_sequencer.md R100: a transaction goes through the eight
kinds in order, phases 0 to 6 in each, every event at the stage it belongs to, whatever the operands and the samples. -/
def Obligations.ReadwordGoesThroughTheKinds : Prop :=
  ∀ (cs : Nat) (a : Byte) (s t : State), exec (.readword cs a) s = .next t →
    newPlaces s t = wordPlaces s.config.hookOrder

/-- 42_phase_sequencer.md R99; 10_state.md R22: the clock waveform of a transaction that starts with Clk1 negated: at the
dwell of slot p, Clk1 is asserted for p in {1, 2} and Clk2 for p in {5, 6}, and every dwell is of one timing unit. -/
def Obligations.ReadwordClockWaveform : Prop :=
  ∀ (cs : Nat) (a : Byte) (s t : State) (before after : List Event) (d : Nat),
    s.lines.clk1 = some Level.N → exec (.readword cs a) s = .next t → Performed s t (before ++ .dwell d :: after) →
    d = s.config.tunit ∧
    (replay before s.lines).clk1 = some (decide (before.countP isDwell % 7 ∈ [1, 2])) ∧
    (replay before s.lines).clk2 = some (decide (before.countP isDwell % 7 ∈ [5, 6]))

/-- 42_phase_sequencer.md R99; 10_state.md R22: at no point of an INIT, a transaction or a scan that starts with Clk1 not
asserted are both clocks asserted. -/
def Obligations.ClocksNeverOverlap : Prop :=
  ∀ (i : Instr) (s t : State) (before after : List Event),
    (i = .init ∨ (∃ cs a, i = .readword cs a) ∨ ∃ cs, i = .scan cs) →
    s.lines.clk1 ≠ some Level.A → exec i s = .next t → Performed s t (before ++ after) →
    ¬ ClocksOverlap (replay before s.lines)

/-- 90_conflicts.md C8; 43_cycle_engine.md R113, R114: at every sample of a transaction ChipMatrixEnable is negated and
the output nibble is 0. -/
def Obligations.EnableNegatedAtTheSamples : Prop :=
  ∀ (cs : Nat) (a : Byte) (s t : State) (before after : List Event) (v : Nibble),
    exec (.readword cs a) s = .next t → Performed s t (before ++ .rdNib v :: after) →
    (replay before s.lines).chipMatrixEnable = some Level.N ∧
    ∀ l ∈ [OutLine.dataOut0, .dataOut1, .dataOut2, .dataOut3], outGet (replay before s.lines) l = some false

/-! ### The scan driver

Every completion here rests on `ClockFair` (40_timer.md R75(c)), which the model's wait has built in (log 12). -/

/-- 44_scan_driver.md R131, R130: the trace of a scan is that of INIT and then of the 256 transactions in ascending
address order, under either HOOK_ORDER, every event at its kind, phase and stage (10_state.md R14, R15).
That the waits end is `ClockFair` (40_timer.md R75(c)), built in (log 12). -/
def Obligations.ScanTraceIsInitAndWords : Prop :=
  ∀ (cs : Nat) (s : State), ∃ t, exec (.scan cs) s = .next t ∧
    Performed s t (scanTrace s.config.hookOrder s.config.tunit cs s) ∧
    newPlaces s t = kindPlaces s.config.hookOrder .init ++ (List.range 256).flatMap fun _ => wordPlaces s.config.hookOrder

/-- 44_scan_driver.md R130; 10_state.md R19, R24; 70_reset_and_hazards.md R191: a scan returns the 256 bytes its samples
make, in address order, leaves the lines at rest and the driver's buffer flushed, and changes nothing of the mask. That the address counter
keeps the last address is the model's inference (log 10).
That the waits end is `ClockFair` (40_timer.md R75(c)), built in (log 12). -/
def Obligations.ScanReturns256Bytes : Prop :=
  ∀ (cs : Nat) (s : State), opcode (.scan cs) = 0x31 ∧
    ∃ t, exec (.scan cs) s = .next t ∧ DoneWith (.bytes (scannedBytes s)) t ∧ (scannedBytes s).length = 256 ∧
      t.lines = restLines ∧ t.cs = some cs ∧ t.addr = some 0xFF ∧ t.result = (scannedBytes s).getLast? ∧
      t.counter = some 0xFF ∧ t.buffer = [] ∧ s.now + 14343 * s.config.tunit ≤ t.now ∧
      SameMask s t ∧ SamePlatform s t ∧ Drew 512 39443 s t

/-- 44_scan_driver.md R131: 25100 events, of which 14343 are dwells, 512 samples, 257 assertions and 256 negations of
Sync, 256 of each of ChipMatrixEnable. -/
def Obligations.ScanEventCounts : Prop :=
  ∀ (cs : Nat) (s t : State) (es : List Event), exec (.scan cs) s = .next t → Performed s t es →
    es.length = 25100 ∧ es.countP isDwell = 14343 ∧ es.countP (fun e => blindEvent e == .rdNib 0) = 512 ∧
    es.count (syncTo Level.A) = 257 ∧ es.count (syncTo Level.N) = 256 ∧
    es.count (enableTo Level.A) = 256 ∧ es.count (enableTo Level.N) = 256

/-- 20_memory.md R41; 44_scan_driver.md R130: against an ideal target a scan returns the content of chip `cs mod 8`.
That the waits end is `ClockFair` (40_timer.md R75(c)), built in (log 12). -/
def Obligations.ScanOfAnIdealTarget : Prop :=
  ∀ (rom : Nat → Byte → Byte) (cs : Nat) (s : State), IdealTarget rom [.scan cs] s →
    ∃ t, exec (.scan cs) s = .next t ∧
      t.completion = .bytes ((List.range 256).map fun a => rom (cs % 8) (BitVec.ofNat 8 a))

/-- 20_memory.md R41; 43_cycle_engine.md R120: against an ideal target a transaction on its own returns the content of chip
`cs mod 8` at its address.
That the waits end is `ClockFair` (40_timer.md R75(c)), built in (log 12). -/
def Obligations.ReadwordOfAnIdealTarget : Prop :=
  ∀ (rom : Nat → Byte → Byte) (cs : Nat) (a : Byte) (s : State), IdealTarget rom [.readword cs a] s →
    ∃ t, exec (.readword cs a) s = .next t ∧ t.completion = .byte (rom (cs % 8) a)

/-- 20_memory.md R41; 70_reset_and_hazards.md R193: in any run against an ideal target, whatever operations stand between,
every transaction and every scan returns the target's content. -/
def Obligations.RunAgainstAnIdealTarget : Prop :=
  ∀ (rom : Nat → Byte → Byte) (before later : List Instr) (i : Instr) (s t u : State),
    IdealTarget rom (before ++ i :: later) s → Runs s before t → exec i t = .next u →
    bytesOf u.completion = (transactions i).map fun c => rom (c.1 % 8) c.2

/-- 44_scan_driver.md R130 (the source's stub of 95_test_vectors.md S6): with every sample the same nibble, a scan returns
256 bytes with that nibble in both halves.
That the waits end is `ClockFair` (40_timer.md R75(c)), built in (log 12). -/
def Obligations.ScanOfAStubTarget : Prop :=
  ∀ (v : Nibble) (cs : Nat) (s : State), StubTarget v 512 s →
    ∃ t, exec (.scan cs) s = .next t ∧ t.completion = .bytes (List.replicate 256 (v ++ v))

/-! ### The whole machine -/

/-- 20_memory.md R40; 43_cycle_engine.md R123: what the input lines show decides the sampled values and `x[result]` and
nothing else: which events occur, in what order, at what levels and positions, is the same for every answer.
For ADDRLOW, ADDRHIGH and CHIPSEL with the register they read unwritten in both states this rests on the model's choice that
an unwritten register always reads as one value (log 2). -/
def Obligations.AnswersDecideOnlyTheData : Prop :=
  ∀ (i : Instr) (s s' : State), SameButInputs s s' →
    match exec i s, exec i s' with
    | .next t, .next t' => SameButInputs t t'
    | .refused r, .refused r' => r = r'
    | .fault f, .fault f' => f = f'
    | _, _ => False

/-- 20_memory.md R43; 00_scope.md R9(h): an operation only adds to the trace, never moves the clock back, writes no
parameter and takes no later request. -/
def Obligations.TraceOnlyGrows : Prop :=
  ∀ (i : Instr) (s t : State), exec i s = .next t →
    (∃ new, t.trace = s.trace ++ new) ∧ s.now ≤ t.now ∧ SamePlatform s t

/-- 41_digital_port.md R86, R87, R88: no operation but the two of the mask touches the interrupt mask. -/
def Obligations.OnlyTheMaskTouchesTheMask : Prop :=
  ∀ (i : Instr) (s t : State), i ≠ .imsuppress → (∀ tok, i ≠ .imrestore tok) → exec i s = .next t → SameMask s t

/-- 20_memory.md R43; 40_timer.md R71: every step keeps the trace in strict chronological order with every dwell at least
as long as asked. -/
def Obligations.StepKeepsTheTraceTimely : Prop := ∀ s t : State, Timely s → step s = .next t → Timely t

/-- 10_state.md R11: every step keeps the output latches at exactly what the trace says was written to them. -/
def Obligations.StepKeepsTheLinesTold : Prop := ∀ s t : State, LinesTold s → step s = .next t → LinesTold t

/-- 30_encoding.md R63; 10_state.md R19(b); 41_digital_port.md R86: every step leaves the block Idle with the buffer
flushed and the outstanding token one that was handed out. -/
def Obligations.StepKeepsTheBlockSettled : Prop :=
  ∀ s t : State, Settled s → TokenIssued s → step s = .next t → Settled t ∧ TokenIssued t

/-- The invariants hold at reset; the one on tokens holds because reset leaves none outstanding (10_state.md R21). -/
def Obligations.ResetMeetsTheInvariants : Prop :=
  Timely State.reset ∧ LinesTold State.reset ∧ Settled State.reset ∧ TokenIssued State.reset
end

