-- ==== Sys2Proof/Laws/State.lean ====
section
/-! SUPPORT. For each shared update of the state: the fields it keeps (one lemma, a conjunction simp reads field by field)
and the value of each field it writes. All hold by `rfl`, so no later proof unfolds a record update. -/

namespace Sys2Proof.Machine

/-- `takeAnswer` keeps every field but `answers`, `sampleCount`. -/
@[simp] theorem takeAnswer_frame (s : State) :
    (takeAnswer s).config = s.config ∧ (takeAnswer s).lines = s.lines ∧ (takeAnswer s).cs = s.cs ∧
    (takeAnswer s).addr = s.addr ∧ (takeAnswer s).result = s.result ∧ (takeAnswer s).pc = s.pc ∧
    (takeAnswer s).now = s.now ∧ (takeAnswer s).counter = s.counter ∧ (takeAnswer s).buffer = s.buffer ∧
    (takeAnswer s).suppressed = s.suppressed ∧ (takeAnswer s).irqEnabled = s.irqEnabled ∧ (takeAnswer s).tokensIssued = s.tokensIssued ∧
    (takeAnswer s).requests = s.requests ∧ (takeAnswer s).completion = s.completion ∧ (takeAnswer s).delays = s.delays ∧
    (takeAnswer s).delayCount = s.delayCount ∧ (takeAnswer s).log = s.log :=
  ⟨rfl, rfl, rfl, rfl, rfl, rfl, rfl, rfl, rfl, rfl, rfl, rfl, rfl, rfl, rfl, rfl, rfl⟩

@[simp] theorem takeAnswer_answers (s : State) :
    (takeAnswer s).answers = s.answers.tail := rfl

@[simp] theorem takeAnswer_sampleCount (s : State) :
    (takeAnswer s).sampleCount = s.sampleCount + 1 := rfl

/-- `advance` keeps every field but `now`, `delays`, `delayCount`. -/
@[simp] theorem advance_frame (d : Nat) (s : State) :
    (advance d s).config = s.config ∧ (advance d s).lines = s.lines ∧ (advance d s).cs = s.cs ∧
    (advance d s).addr = s.addr ∧ (advance d s).result = s.result ∧ (advance d s).pc = s.pc ∧
    (advance d s).counter = s.counter ∧ (advance d s).buffer = s.buffer ∧ (advance d s).suppressed = s.suppressed ∧
    (advance d s).irqEnabled = s.irqEnabled ∧ (advance d s).tokensIssued = s.tokensIssued ∧ (advance d s).requests = s.requests ∧
    (advance d s).completion = s.completion ∧ (advance d s).answers = s.answers ∧ (advance d s).sampleCount = s.sampleCount ∧
    (advance d s).log = s.log :=
  ⟨rfl, rfl, rfl, rfl, rfl, rfl, rfl, rfl, rfl, rfl, rfl, rfl, rfl, rfl, rfl, rfl⟩

@[simp] theorem advance_now (d : Nat) (s : State) :
    (advance d s).now = s.now + d + delayAt s 0 := rfl

@[simp] theorem advance_delays (d : Nat) (s : State) :
    (advance d s).delays = s.delays.tail := rfl

@[simp] theorem advance_delayCount (d : Nat) (s : State) :
    (advance d s).delayCount = s.delayCount + 1 := rfl

/-- `writeCs` keeps every field but `cs`. -/
@[simp] theorem writeCs_frame (n : Nat) (s : State) :
    (writeCs n s).config = s.config ∧ (writeCs n s).lines = s.lines ∧ (writeCs n s).addr = s.addr ∧
    (writeCs n s).result = s.result ∧ (writeCs n s).pc = s.pc ∧ (writeCs n s).now = s.now ∧
    (writeCs n s).counter = s.counter ∧ (writeCs n s).buffer = s.buffer ∧ (writeCs n s).suppressed = s.suppressed ∧
    (writeCs n s).irqEnabled = s.irqEnabled ∧ (writeCs n s).tokensIssued = s.tokensIssued ∧ (writeCs n s).requests = s.requests ∧
    (writeCs n s).completion = s.completion ∧ (writeCs n s).answers = s.answers ∧ (writeCs n s).sampleCount = s.sampleCount ∧
    (writeCs n s).delays = s.delays ∧ (writeCs n s).delayCount = s.delayCount ∧ (writeCs n s).log = s.log :=
  ⟨rfl, rfl, rfl, rfl, rfl, rfl, rfl, rfl, rfl, rfl, rfl, rfl, rfl, rfl, rfl, rfl, rfl, rfl⟩

@[simp] theorem writeCs_cs (n : Nat) (s : State) :
    (writeCs n s).cs = some n := rfl

/-- `writeAddr` keeps every field but `addr`. -/
@[simp] theorem writeAddr_frame (a : Byte) (s : State) :
    (writeAddr a s).config = s.config ∧ (writeAddr a s).lines = s.lines ∧ (writeAddr a s).cs = s.cs ∧
    (writeAddr a s).result = s.result ∧ (writeAddr a s).pc = s.pc ∧ (writeAddr a s).now = s.now ∧
    (writeAddr a s).counter = s.counter ∧ (writeAddr a s).buffer = s.buffer ∧ (writeAddr a s).suppressed = s.suppressed ∧
    (writeAddr a s).irqEnabled = s.irqEnabled ∧ (writeAddr a s).tokensIssued = s.tokensIssued ∧ (writeAddr a s).requests = s.requests ∧
    (writeAddr a s).completion = s.completion ∧ (writeAddr a s).answers = s.answers ∧ (writeAddr a s).sampleCount = s.sampleCount ∧
    (writeAddr a s).delays = s.delays ∧ (writeAddr a s).delayCount = s.delayCount ∧ (writeAddr a s).log = s.log :=
  ⟨rfl, rfl, rfl, rfl, rfl, rfl, rfl, rfl, rfl, rfl, rfl, rfl, rfl, rfl, rfl, rfl, rfl, rfl⟩

@[simp] theorem writeAddr_addr (a : Byte) (s : State) :
    (writeAddr a s).addr = some a := rfl

/-- `writeResult` keeps every field but `result`. -/
@[simp] theorem writeResult_frame (b : Byte) (s : State) :
    (writeResult b s).config = s.config ∧ (writeResult b s).lines = s.lines ∧ (writeResult b s).cs = s.cs ∧
    (writeResult b s).addr = s.addr ∧ (writeResult b s).pc = s.pc ∧ (writeResult b s).now = s.now ∧
    (writeResult b s).counter = s.counter ∧ (writeResult b s).buffer = s.buffer ∧ (writeResult b s).suppressed = s.suppressed ∧
    (writeResult b s).irqEnabled = s.irqEnabled ∧ (writeResult b s).tokensIssued = s.tokensIssued ∧ (writeResult b s).requests = s.requests ∧
    (writeResult b s).completion = s.completion ∧ (writeResult b s).answers = s.answers ∧ (writeResult b s).sampleCount = s.sampleCount ∧
    (writeResult b s).delays = s.delays ∧ (writeResult b s).delayCount = s.delayCount ∧ (writeResult b s).log = s.log :=
  ⟨rfl, rfl, rfl, rfl, rfl, rfl, rfl, rfl, rfl, rfl, rfl, rfl, rfl, rfl, rfl, rfl, rfl, rfl⟩

@[simp] theorem writeResult_result (b : Byte) (s : State) :
    (writeResult b s).result = some b := rfl

/-- `enterKind` keeps every field but `pc`. -/
@[simp] theorem enterKind_frame (k : CycleKind) (s : State) :
    (enterKind k s).config = s.config ∧ (enterKind k s).lines = s.lines ∧ (enterKind k s).cs = s.cs ∧
    (enterKind k s).addr = s.addr ∧ (enterKind k s).result = s.result ∧ (enterKind k s).now = s.now ∧
    (enterKind k s).counter = s.counter ∧ (enterKind k s).buffer = s.buffer ∧ (enterKind k s).suppressed = s.suppressed ∧
    (enterKind k s).irqEnabled = s.irqEnabled ∧ (enterKind k s).tokensIssued = s.tokensIssued ∧ (enterKind k s).requests = s.requests ∧
    (enterKind k s).completion = s.completion ∧ (enterKind k s).answers = s.answers ∧ (enterKind k s).sampleCount = s.sampleCount ∧
    (enterKind k s).delays = s.delays ∧ (enterKind k s).delayCount = s.delayCount ∧ (enterKind k s).log = s.log :=
  ⟨rfl, rfl, rfl, rfl, rfl, rfl, rfl, rfl, rfl, rfl, rfl, rfl, rfl, rfl, rfl, rfl, rfl, rfl⟩

@[simp] theorem enterKind_pc (k : CycleKind) (s : State) :
    (enterKind k s).pc = { kind := .cycle k, phase := 0, stage := none } := rfl

/-- `enterPhase` keeps every field but `pc`. -/
@[simp] theorem enterPhase_frame (i : PhaseIndex) (s : State) :
    (enterPhase i s).config = s.config ∧ (enterPhase i s).lines = s.lines ∧ (enterPhase i s).cs = s.cs ∧
    (enterPhase i s).addr = s.addr ∧ (enterPhase i s).result = s.result ∧ (enterPhase i s).now = s.now ∧
    (enterPhase i s).counter = s.counter ∧ (enterPhase i s).buffer = s.buffer ∧ (enterPhase i s).suppressed = s.suppressed ∧
    (enterPhase i s).irqEnabled = s.irqEnabled ∧ (enterPhase i s).tokensIssued = s.tokensIssued ∧ (enterPhase i s).requests = s.requests ∧
    (enterPhase i s).completion = s.completion ∧ (enterPhase i s).answers = s.answers ∧ (enterPhase i s).sampleCount = s.sampleCount ∧
    (enterPhase i s).delays = s.delays ∧ (enterPhase i s).delayCount = s.delayCount ∧ (enterPhase i s).log = s.log :=
  ⟨rfl, rfl, rfl, rfl, rfl, rfl, rfl, rfl, rfl, rfl, rfl, rfl, rfl, rfl, rfl, rfl, rfl, rfl⟩

@[simp] theorem enterPhase_pc (i : PhaseIndex) (s : State) :
    (enterPhase i s).pc = { s.pc with phase := i } := rfl

/-- `enterStage` keeps every field but `pc`. -/
@[simp] theorem enterStage_frame (st : Stage) (s : State) :
    (enterStage st s).config = s.config ∧ (enterStage st s).lines = s.lines ∧ (enterStage st s).cs = s.cs ∧
    (enterStage st s).addr = s.addr ∧ (enterStage st s).result = s.result ∧ (enterStage st s).now = s.now ∧
    (enterStage st s).counter = s.counter ∧ (enterStage st s).buffer = s.buffer ∧ (enterStage st s).suppressed = s.suppressed ∧
    (enterStage st s).irqEnabled = s.irqEnabled ∧ (enterStage st s).tokensIssued = s.tokensIssued ∧ (enterStage st s).requests = s.requests ∧
    (enterStage st s).completion = s.completion ∧ (enterStage st s).answers = s.answers ∧ (enterStage st s).sampleCount = s.sampleCount ∧
    (enterStage st s).delays = s.delays ∧ (enterStage st s).delayCount = s.delayCount ∧ (enterStage st s).log = s.log :=
  ⟨rfl, rfl, rfl, rfl, rfl, rfl, rfl, rfl, rfl, rfl, rfl, rfl, rfl, rfl, rfl, rfl, rfl, rfl⟩

@[simp] theorem enterStage_pc (st : Stage) (s : State) :
    (enterStage st s).pc = { s.pc with stage := some st } := rfl

/-- `goIdle` keeps every field but `pc`. -/
@[simp] theorem goIdle_frame (s : State) :
    (goIdle s).config = s.config ∧ (goIdle s).lines = s.lines ∧ (goIdle s).cs = s.cs ∧
    (goIdle s).addr = s.addr ∧ (goIdle s).result = s.result ∧ (goIdle s).now = s.now ∧
    (goIdle s).counter = s.counter ∧ (goIdle s).buffer = s.buffer ∧ (goIdle s).suppressed = s.suppressed ∧
    (goIdle s).irqEnabled = s.irqEnabled ∧ (goIdle s).tokensIssued = s.tokensIssued ∧ (goIdle s).requests = s.requests ∧
    (goIdle s).completion = s.completion ∧ (goIdle s).answers = s.answers ∧ (goIdle s).sampleCount = s.sampleCount ∧
    (goIdle s).delays = s.delays ∧ (goIdle s).delayCount = s.delayCount ∧ (goIdle s).log = s.log :=
  ⟨rfl, rfl, rfl, rfl, rfl, rfl, rfl, rfl, rfl, rfl, rfl, rfl, rfl, rfl, rfl, rfl, rfl, rfl⟩

@[simp] theorem goIdle_pc (s : State) :
    (goIdle s).pc = { s.pc with kind := .idle, stage := none } := rfl

/-- `record` keeps every field but `log`. -/
@[simp] theorem record_frame (e : Event) (start : Nat) (s : State) :
    (record e start s).config = s.config ∧ (record e start s).lines = s.lines ∧ (record e start s).cs = s.cs ∧
    (record e start s).addr = s.addr ∧ (record e start s).result = s.result ∧ (record e start s).pc = s.pc ∧
    (record e start s).now = s.now ∧ (record e start s).counter = s.counter ∧ (record e start s).buffer = s.buffer ∧
    (record e start s).suppressed = s.suppressed ∧ (record e start s).irqEnabled = s.irqEnabled ∧ (record e start s).tokensIssued = s.tokensIssued ∧
    (record e start s).requests = s.requests ∧ (record e start s).completion = s.completion ∧ (record e start s).answers = s.answers ∧
    (record e start s).sampleCount = s.sampleCount ∧ (record e start s).delays = s.delays ∧ (record e start s).delayCount = s.delayCount :=
  ⟨rfl, rfl, rfl, rfl, rfl, rfl, rfl, rfl, rfl, rfl, rfl, rfl, rfl, rfl, rfl, rfl, rfl, rfl⟩

@[simp] theorem record_log (e : Event) (start : Nat) (s : State) :
    (record e start s).log = { event := e, pc := s.pc, start := start, stop := s.now } :: s.log := rfl

/-- `setLine` keeps every field but `lines`, `now`, `delays`, `delayCount`, `log`. -/
@[simp] theorem setLine_frame (l : OutLine) (v : Level) (s : State) :
    (setLine l v s).config = s.config ∧ (setLine l v s).cs = s.cs ∧ (setLine l v s).addr = s.addr ∧
    (setLine l v s).result = s.result ∧ (setLine l v s).pc = s.pc ∧ (setLine l v s).counter = s.counter ∧
    (setLine l v s).buffer = s.buffer ∧ (setLine l v s).suppressed = s.suppressed ∧ (setLine l v s).irqEnabled = s.irqEnabled ∧
    (setLine l v s).tokensIssued = s.tokensIssued ∧ (setLine l v s).requests = s.requests ∧ (setLine l v s).completion = s.completion ∧
    (setLine l v s).answers = s.answers ∧ (setLine l v s).sampleCount = s.sampleCount :=
  ⟨rfl, rfl, rfl, rfl, rfl, rfl, rfl, rfl, rfl, rfl, rfl, rfl, rfl, rfl⟩

@[simp] theorem setLine_lines (l : OutLine) (v : Level) (s : State) :
    (setLine l v s).lines = outSet s.lines l (some v) := rfl

@[simp] theorem setLine_now (l : OutLine) (v : Level) (s : State) :
    (setLine l v s).now = s.now + delayAt s 0 := rfl

@[simp] theorem setLine_delays (l : OutLine) (v : Level) (s : State) :
    (setLine l v s).delays = s.delays.tail := rfl

@[simp] theorem setLine_delayCount (l : OutLine) (v : Level) (s : State) :
    (setLine l v s).delayCount = s.delayCount + 1 := rfl

@[simp] theorem setLine_log (l : OutLine) (v : Level) (s : State) :
    (setLine l v s).log = { event := .set l v, pc := s.pc, start := s.now + delayAt s 0, stop := s.now + delayAt s 0 } :: s.log := rfl

/-- `writeNibble` keeps every field but `lines`, `now`, `delays`, `delayCount`, `log`. -/
@[simp] theorem writeNibble_frame (n : Nibble) (s : State) :
    (writeNibble n s).config = s.config ∧ (writeNibble n s).cs = s.cs ∧ (writeNibble n s).addr = s.addr ∧
    (writeNibble n s).result = s.result ∧ (writeNibble n s).pc = s.pc ∧ (writeNibble n s).counter = s.counter ∧
    (writeNibble n s).buffer = s.buffer ∧ (writeNibble n s).suppressed = s.suppressed ∧ (writeNibble n s).irqEnabled = s.irqEnabled ∧
    (writeNibble n s).tokensIssued = s.tokensIssued ∧ (writeNibble n s).requests = s.requests ∧ (writeNibble n s).completion = s.completion ∧
    (writeNibble n s).answers = s.answers ∧ (writeNibble n s).sampleCount = s.sampleCount :=
  ⟨rfl, rfl, rfl, rfl, rfl, rfl, rfl, rfl, rfl, rfl, rfl, rfl, rfl, rfl⟩

@[simp] theorem writeNibble_lines (n : Nibble) (s : State) :
    (writeNibble n s).lines = outNibble s.lines n := rfl

@[simp] theorem writeNibble_now (n : Nibble) (s : State) :
    (writeNibble n s).now = s.now + delayAt s 0 := rfl

@[simp] theorem writeNibble_delays (n : Nibble) (s : State) :
    (writeNibble n s).delays = s.delays.tail := rfl

@[simp] theorem writeNibble_delayCount (n : Nibble) (s : State) :
    (writeNibble n s).delayCount = s.delayCount + 1 := rfl

@[simp] theorem writeNibble_log (n : Nibble) (s : State) :
    (writeNibble n s).log = { event := .wrNib n, pc := s.pc, start := s.now + delayAt s 0, stop := s.now + delayAt s 0 } :: s.log := rfl

/-- `readNibble` keeps every field but `now`, `answers`, `sampleCount`, `delays`, `delayCount`, `log`. -/
@[simp] theorem readNibble_frame (s : State) :
    (readNibble s).config = s.config ∧ (readNibble s).lines = s.lines ∧ (readNibble s).cs = s.cs ∧
    (readNibble s).addr = s.addr ∧ (readNibble s).result = s.result ∧ (readNibble s).pc = s.pc ∧
    (readNibble s).counter = s.counter ∧ (readNibble s).buffer = s.buffer ∧ (readNibble s).suppressed = s.suppressed ∧
    (readNibble s).irqEnabled = s.irqEnabled ∧ (readNibble s).tokensIssued = s.tokensIssued ∧ (readNibble s).requests = s.requests ∧
    (readNibble s).completion = s.completion :=
  ⟨rfl, rfl, rfl, rfl, rfl, rfl, rfl, rfl, rfl, rfl, rfl, rfl, rfl⟩

@[simp] theorem readNibble_answers (s : State) :
    (readNibble s).answers = s.answers.tail := rfl

@[simp] theorem readNibble_sampleCount (s : State) :
    (readNibble s).sampleCount = s.sampleCount + 1 := rfl

@[simp] theorem readNibble_now (s : State) :
    (readNibble s).now = s.now + delayAt s 0 := rfl

@[simp] theorem readNibble_delays (s : State) :
    (readNibble s).delays = s.delays.tail := rfl

@[simp] theorem readNibble_delayCount (s : State) :
    (readNibble s).delayCount = s.delayCount + 1 := rfl

@[simp] theorem readNibble_log (s : State) :
    (readNibble s).log = { event := .rdNib (answerAt s 0), pc := s.pc, start := s.now + delayAt s 0, stop := s.now + delayAt s 0 } :: s.log := rfl

/-- `readLine` keeps every field but `now`, `answers`, `sampleCount`, `delays`, `delayCount`, `log`. -/
@[simp] theorem readLine_frame (l : InLine) (s : State) :
    (readLine l s).config = s.config ∧ (readLine l s).lines = s.lines ∧ (readLine l s).cs = s.cs ∧
    (readLine l s).addr = s.addr ∧ (readLine l s).result = s.result ∧ (readLine l s).pc = s.pc ∧
    (readLine l s).counter = s.counter ∧ (readLine l s).buffer = s.buffer ∧ (readLine l s).suppressed = s.suppressed ∧
    (readLine l s).irqEnabled = s.irqEnabled ∧ (readLine l s).tokensIssued = s.tokensIssued ∧ (readLine l s).requests = s.requests ∧
    (readLine l s).completion = s.completion :=
  ⟨rfl, rfl, rfl, rfl, rfl, rfl, rfl, rfl, rfl, rfl, rfl, rfl, rfl⟩

@[simp] theorem readLine_answers (l : InLine) (s : State) :
    (readLine l s).answers = s.answers.tail := rfl

@[simp] theorem readLine_sampleCount (l : InLine) (s : State) :
    (readLine l s).sampleCount = s.sampleCount + 1 := rfl

@[simp] theorem readLine_now (l : InLine) (s : State) :
    (readLine l s).now = s.now + delayAt s 0 := rfl

@[simp] theorem readLine_delays (l : InLine) (s : State) :
    (readLine l s).delays = s.delays.tail := rfl

@[simp] theorem readLine_delayCount (l : InLine) (s : State) :
    (readLine l s).delayCount = s.delayCount + 1 := rfl

@[simp] theorem readLine_log (l : InLine) (s : State) :
    (readLine l s).log = { event := .rd l (inputBit (answerAt s 0) l), pc := s.pc, start := s.now + delayAt s 0, stop := s.now + delayAt s 0 } :: s.log := rfl

/-- `wait` keeps every field but `now`, `delays`, `delayCount`, `log`. -/
@[simp] theorem wait_frame (d : Nat) (s : State) :
    (wait d s).config = s.config ∧ (wait d s).lines = s.lines ∧ (wait d s).cs = s.cs ∧
    (wait d s).addr = s.addr ∧ (wait d s).result = s.result ∧ (wait d s).pc = s.pc ∧
    (wait d s).counter = s.counter ∧ (wait d s).buffer = s.buffer ∧ (wait d s).suppressed = s.suppressed ∧
    (wait d s).irqEnabled = s.irqEnabled ∧ (wait d s).tokensIssued = s.tokensIssued ∧ (wait d s).requests = s.requests ∧
    (wait d s).completion = s.completion ∧ (wait d s).answers = s.answers ∧ (wait d s).sampleCount = s.sampleCount :=
  ⟨rfl, rfl, rfl, rfl, rfl, rfl, rfl, rfl, rfl, rfl, rfl, rfl, rfl, rfl, rfl⟩

@[simp] theorem wait_delays (d : Nat) (s : State) :
    (wait d s).delays = s.delays.tail.tail := rfl

@[simp] theorem wait_delayCount (d : Nat) (s : State) :
    (wait d s).delayCount = s.delayCount + 1 + 1 := rfl

@[simp] theorem wait_now (d : Nat) (s : State) :
    (wait d s).now = s.now + delayAt s 0 + roundUp (tickOf s.config) d + delayAt (advance 0 s) 0 := rfl

@[simp] theorem wait_log (d : Nat) (s : State) :
    (wait d s).log = { event := .dwell d, pc := s.pc, start := s.now + delayAt s 0, stop := s.now + delayAt s 0 + roundUp (tickOf s.config) d + delayAt (advance 0 s) 0 } :: s.log := rfl

/-- `dwell` keeps every field but `pc`, `now`, `delays`, `delayCount`, `log`. -/
@[simp] theorem dwell_frame (s : State) :
    (dwell s).config = s.config ∧ (dwell s).lines = s.lines ∧ (dwell s).cs = s.cs ∧
    (dwell s).addr = s.addr ∧ (dwell s).result = s.result ∧ (dwell s).counter = s.counter ∧
    (dwell s).buffer = s.buffer ∧ (dwell s).suppressed = s.suppressed ∧ (dwell s).irqEnabled = s.irqEnabled ∧
    (dwell s).tokensIssued = s.tokensIssued ∧ (dwell s).requests = s.requests ∧ (dwell s).completion = s.completion ∧
    (dwell s).answers = s.answers ∧ (dwell s).sampleCount = s.sampleCount :=
  ⟨rfl, rfl, rfl, rfl, rfl, rfl, rfl, rfl, rfl, rfl, rfl, rfl, rfl, rfl⟩

@[simp] theorem dwell_pc (s : State) :
    (dwell s).pc = { s.pc with stage := some .dwell } := rfl

/-- `maskWrite` keeps every field but `irqEnabled`. -/
@[simp] theorem maskWrite_frame (new : List Nat) (s : State) :
    (maskWrite new s).config = s.config ∧ (maskWrite new s).lines = s.lines ∧ (maskWrite new s).cs = s.cs ∧
    (maskWrite new s).addr = s.addr ∧ (maskWrite new s).result = s.result ∧ (maskWrite new s).pc = s.pc ∧
    (maskWrite new s).now = s.now ∧ (maskWrite new s).counter = s.counter ∧ (maskWrite new s).buffer = s.buffer ∧
    (maskWrite new s).suppressed = s.suppressed ∧ (maskWrite new s).tokensIssued = s.tokensIssued ∧ (maskWrite new s).requests = s.requests ∧
    (maskWrite new s).completion = s.completion ∧ (maskWrite new s).answers = s.answers ∧ (maskWrite new s).sampleCount = s.sampleCount ∧
    (maskWrite new s).delays = s.delays ∧ (maskWrite new s).delayCount = s.delayCount ∧ (maskWrite new s).log = s.log :=
  ⟨rfl, rfl, rfl, rfl, rfl, rfl, rfl, rfl, rfl, rfl, rfl, rfl, rfl, rfl, rfl, rfl, rfl, rfl⟩

@[simp] theorem maskWrite_irqEnabled (new : List Nat) (s : State) :
    (maskWrite new s).irqEnabled = if s.config.maskEffective then new else s.irqEnabled := rfl

/-- `suppress` keeps every field but `now`, `suppressed`, `irqEnabled`, `tokensIssued`, `delays`, `delayCount`. -/
@[simp] theorem suppress_frame (s : State) :
    (suppress s).config = s.config ∧ (suppress s).lines = s.lines ∧ (suppress s).cs = s.cs ∧
    (suppress s).addr = s.addr ∧ (suppress s).result = s.result ∧ (suppress s).pc = s.pc ∧
    (suppress s).counter = s.counter ∧ (suppress s).buffer = s.buffer ∧ (suppress s).requests = s.requests ∧
    (suppress s).completion = s.completion ∧ (suppress s).answers = s.answers ∧ (suppress s).sampleCount = s.sampleCount ∧
    (suppress s).log = s.log :=
  ⟨rfl, rfl, rfl, rfl, rfl, rfl, rfl, rfl, rfl, rfl, rfl, rfl, rfl⟩

@[simp] theorem suppress_now (s : State) :
    (suppress s).now = s.now + delayAt s 0 := rfl

@[simp] theorem suppress_suppressed (s : State) :
    (suppress s).suppressed = some { token := s.tokensIssued, captured := s.irqEnabled } := rfl

@[simp] theorem suppress_irqEnabled (s : State) :
    (suppress s).irqEnabled = if s.config.maskEffective then [] else s.irqEnabled := rfl

@[simp] theorem suppress_tokensIssued (s : State) :
    (suppress s).tokensIssued = s.tokensIssued + 1 := rfl

@[simp] theorem suppress_delays (s : State) :
    (suppress s).delays = s.delays.tail := rfl

@[simp] theorem suppress_delayCount (s : State) :
    (suppress s).delayCount = s.delayCount + 1 := rfl

/-- `restore` keeps every field but `now`, `suppressed`, `irqEnabled`, `delays`, `delayCount`. -/
@[simp] theorem restore_frame (captured : List Nat) (s : State) :
    (restore captured s).config = s.config ∧ (restore captured s).lines = s.lines ∧ (restore captured s).cs = s.cs ∧
    (restore captured s).addr = s.addr ∧ (restore captured s).result = s.result ∧ (restore captured s).pc = s.pc ∧
    (restore captured s).counter = s.counter ∧ (restore captured s).buffer = s.buffer ∧ (restore captured s).tokensIssued = s.tokensIssued ∧
    (restore captured s).requests = s.requests ∧ (restore captured s).completion = s.completion ∧ (restore captured s).answers = s.answers ∧
    (restore captured s).sampleCount = s.sampleCount ∧ (restore captured s).log = s.log :=
  ⟨rfl, rfl, rfl, rfl, rfl, rfl, rfl, rfl, rfl, rfl, rfl, rfl, rfl, rfl⟩

@[simp] theorem restore_now (captured : List Nat) (s : State) :
    (restore captured s).now = s.now + delayAt s 0 := rfl

@[simp] theorem restore_suppressed (captured : List Nat) (s : State) :
    (restore captured s).suppressed = none := rfl

@[simp] theorem restore_irqEnabled (captured : List Nat) (s : State) :
    (restore captured s).irqEnabled = if s.config.maskEffective then captured else s.irqEnabled := rfl

@[simp] theorem restore_delays (captured : List Nat) (s : State) :
    (restore captured s).delays = s.delays.tail := rfl

@[simp] theorem restore_delayCount (captured : List Nat) (s : State) :
    (restore captured s).delayCount = s.delayCount + 1 := rfl

/-- `appendResult` keeps every field but `buffer`. -/
@[simp] theorem appendResult_frame (s : State) :
    (appendResult s).config = s.config ∧ (appendResult s).lines = s.lines ∧ (appendResult s).cs = s.cs ∧
    (appendResult s).addr = s.addr ∧ (appendResult s).result = s.result ∧ (appendResult s).pc = s.pc ∧
    (appendResult s).now = s.now ∧ (appendResult s).counter = s.counter ∧ (appendResult s).suppressed = s.suppressed ∧
    (appendResult s).irqEnabled = s.irqEnabled ∧ (appendResult s).tokensIssued = s.tokensIssued ∧ (appendResult s).requests = s.requests ∧
    (appendResult s).completion = s.completion ∧ (appendResult s).answers = s.answers ∧ (appendResult s).sampleCount = s.sampleCount ∧
    (appendResult s).delays = s.delays ∧ (appendResult s).delayCount = s.delayCount ∧ (appendResult s).log = s.log :=
  ⟨rfl, rfl, rfl, rfl, rfl, rfl, rfl, rfl, rfl, rfl, rfl, rfl, rfl, rfl, rfl, rfl, rfl, rfl⟩

@[simp] theorem appendResult_buffer (s : State) :
    (appendResult s).buffer = s.buffer ++ [readResult s] := rfl

/-- `flushBuffer` keeps every field but `buffer`. -/
@[simp] theorem flushBuffer_frame (s : State) :
    (flushBuffer s).config = s.config ∧ (flushBuffer s).lines = s.lines ∧ (flushBuffer s).cs = s.cs ∧
    (flushBuffer s).addr = s.addr ∧ (flushBuffer s).result = s.result ∧ (flushBuffer s).pc = s.pc ∧
    (flushBuffer s).now = s.now ∧ (flushBuffer s).counter = s.counter ∧ (flushBuffer s).suppressed = s.suppressed ∧
    (flushBuffer s).irqEnabled = s.irqEnabled ∧ (flushBuffer s).tokensIssued = s.tokensIssued ∧ (flushBuffer s).requests = s.requests ∧
    (flushBuffer s).completion = s.completion ∧ (flushBuffer s).answers = s.answers ∧ (flushBuffer s).sampleCount = s.sampleCount ∧
    (flushBuffer s).delays = s.delays ∧ (flushBuffer s).delayCount = s.delayCount ∧ (flushBuffer s).log = s.log :=
  ⟨rfl, rfl, rfl, rfl, rfl, rfl, rfl, rfl, rfl, rfl, rfl, rfl, rfl, rfl, rfl, rfl, rfl, rfl⟩

@[simp] theorem flushBuffer_buffer (s : State) :
    (flushBuffer s).buffer = [] := rfl

/-- `setCounter` keeps every field but `counter`. -/
@[simp] theorem setCounter_frame (a : Byte) (s : State) :
    (setCounter a s).config = s.config ∧ (setCounter a s).lines = s.lines ∧ (setCounter a s).cs = s.cs ∧
    (setCounter a s).addr = s.addr ∧ (setCounter a s).result = s.result ∧ (setCounter a s).pc = s.pc ∧
    (setCounter a s).now = s.now ∧ (setCounter a s).buffer = s.buffer ∧ (setCounter a s).suppressed = s.suppressed ∧
    (setCounter a s).irqEnabled = s.irqEnabled ∧ (setCounter a s).tokensIssued = s.tokensIssued ∧ (setCounter a s).requests = s.requests ∧
    (setCounter a s).completion = s.completion ∧ (setCounter a s).answers = s.answers ∧ (setCounter a s).sampleCount = s.sampleCount ∧
    (setCounter a s).delays = s.delays ∧ (setCounter a s).delayCount = s.delayCount ∧ (setCounter a s).log = s.log :=
  ⟨rfl, rfl, rfl, rfl, rfl, rfl, rfl, rfl, rfl, rfl, rfl, rfl, rfl, rfl, rfl, rfl, rfl, rfl⟩

@[simp] theorem setCounter_counter (a : Byte) (s : State) :
    (setCounter a s).counter = some a := rfl

/-- `complete` keeps every field but `pc`, `completion`. -/
@[simp] theorem complete_frame (c : Completion) (s : State) :
    (complete c s).config = s.config ∧ (complete c s).lines = s.lines ∧ (complete c s).cs = s.cs ∧
    (complete c s).addr = s.addr ∧ (complete c s).result = s.result ∧ (complete c s).now = s.now ∧
    (complete c s).counter = s.counter ∧ (complete c s).buffer = s.buffer ∧ (complete c s).suppressed = s.suppressed ∧
    (complete c s).irqEnabled = s.irqEnabled ∧ (complete c s).tokensIssued = s.tokensIssued ∧ (complete c s).requests = s.requests ∧
    (complete c s).answers = s.answers ∧ (complete c s).sampleCount = s.sampleCount ∧ (complete c s).delays = s.delays ∧
    (complete c s).delayCount = s.delayCount ∧ (complete c s).log = s.log :=
  ⟨rfl, rfl, rfl, rfl, rfl, rfl, rfl, rfl, rfl, rfl, rfl, rfl, rfl, rfl, rfl, rfl, rfl⟩

@[simp] theorem complete_pc (c : Completion) (s : State) :
    (complete c s).pc = { s.pc with kind := .idle, stage := none } := rfl

@[simp] theorem complete_completion (c : Completion) (s : State) :
    (complete c s).completion = c := rfl

end Sys2Proof.Machine
end

