-- ==== Sys2Proof/Laws/Ops.lean ====
section
/-! SUPPORT. What each shared operation adds to the trace and what it does to the environment's coming answers; the clock
only moves on. -/

namespace Sys2Proof.Machine

/-- An event recorded is the last of the trace. -/
@[simp] theorem record_events (e : Event) (start : Nat) (s : State) :
    (record e start s).events = s.events ++ [e] := by
  simp [State.events, State.trace]

/-- After a sample the coming answers move up by one. -/
@[simp] theorem takeAnswer_answerAt (s : State) (k : Nat) : answerAt (takeAnswer s) k = answerAt s (k + 1) := by
  have index : s.sampleCount + 1 + k = s.sampleCount + (k + 1) := by omega
  simp [answerAt, index]

@[simp] theorem takeAnswer_events (s : State) : (takeAnswer s).events = s.events := rfl

@[simp] theorem advance_events (d : Nat) (s : State) : (advance d s).events = s.events := rfl

@[simp] theorem advance_answerAt (d : Nat) (s : State) (n' : Nat) :
    answerAt (advance d s) n' = answerAt s n' := rfl

@[simp] theorem writeCs_events (n : Nat) (s : State) : (writeCs n s).events = s.events := rfl

@[simp] theorem writeCs_answerAt (n : Nat) (s : State) (n' : Nat) :
    answerAt (writeCs n s) n' = answerAt s n' := rfl

@[simp] theorem writeAddr_events (a : Byte) (s : State) : (writeAddr a s).events = s.events := rfl

@[simp] theorem writeAddr_answerAt (a : Byte) (s : State) (n' : Nat) :
    answerAt (writeAddr a s) n' = answerAt s n' := rfl

@[simp] theorem writeResult_events (b : Byte) (s : State) : (writeResult b s).events = s.events := rfl

@[simp] theorem writeResult_answerAt (b : Byte) (s : State) (n' : Nat) :
    answerAt (writeResult b s) n' = answerAt s n' := rfl

@[simp] theorem enterKind_events (k : CycleKind) (s : State) : (enterKind k s).events = s.events := rfl

@[simp] theorem enterKind_answerAt (k : CycleKind) (s : State) (n' : Nat) :
    answerAt (enterKind k s) n' = answerAt s n' := rfl

@[simp] theorem enterPhase_events (i : PhaseIndex) (s : State) : (enterPhase i s).events = s.events := rfl

@[simp] theorem enterPhase_answerAt (i : PhaseIndex) (s : State) (n' : Nat) :
    answerAt (enterPhase i s) n' = answerAt s n' := rfl

@[simp] theorem enterStage_events (st : Stage) (s : State) : (enterStage st s).events = s.events := rfl

@[simp] theorem enterStage_answerAt (st : Stage) (s : State) (n' : Nat) :
    answerAt (enterStage st s) n' = answerAt s n' := rfl

@[simp] theorem goIdle_events (s : State) : (goIdle s).events = s.events := rfl

@[simp] theorem goIdle_answerAt (s : State) (n' : Nat) :
    answerAt (goIdle s) n' = answerAt s n' := rfl

@[simp] theorem setLine_events (l : OutLine) (v : Level) (s : State) : (setLine l v s).events = s.events ++ [.set l v] :=
  record_events _ _ _

@[simp] theorem setLine_answerAt (l : OutLine) (v : Level) (s : State) (n' : Nat) :
    answerAt (setLine l v s) n' = answerAt s n' := rfl

@[simp] theorem writeNibble_events (n : Nibble) (s : State) : (writeNibble n s).events = s.events ++ [.wrNib n] :=
  record_events _ _ _

@[simp] theorem writeNibble_answerAt (n : Nibble) (s : State) (n' : Nat) :
    answerAt (writeNibble n s) n' = answerAt s n' := rfl

@[simp] theorem readNibble_events (s : State) : (readNibble s).events = s.events ++ [.rdNib (answerAt s 0)] :=
  record_events _ _ _

@[simp] theorem readNibble_answerAt (s : State) (k : Nat) :
    answerAt (readNibble s) k = answerAt s (k + 1) :=
  takeAnswer_answerAt _ k

@[simp] theorem readLine_events (l : InLine) (s : State) : (readLine l s).events = s.events ++ [.rd l (inputBit (answerAt s 0) l)] :=
  record_events _ _ _

@[simp] theorem readLine_answerAt (l : InLine) (s : State) (k : Nat) :
    answerAt (readLine l s) k = answerAt s (k + 1) :=
  takeAnswer_answerAt _ k

@[simp] theorem wait_events (d : Nat) (s : State) : (wait d s).events = s.events ++ [.dwell d] :=
  record_events _ _ _

@[simp] theorem wait_answerAt (d : Nat) (s : State) (n' : Nat) :
    answerAt (wait d s) n' = answerAt s n' := rfl

@[simp] theorem dwell_events (s : State) : (dwell s).events = s.events ++ [.dwell s.config.tunit] :=
  record_events _ _ _

@[simp] theorem dwell_answerAt (s : State) (n' : Nat) :
    answerAt (dwell s) n' = answerAt s n' := rfl

@[simp] theorem appendResult_events (s : State) : (appendResult s).events = s.events := rfl

@[simp] theorem appendResult_answerAt (s : State) (n' : Nat) :
    answerAt (appendResult s) n' = answerAt s n' := rfl

@[simp] theorem flushBuffer_events (s : State) : (flushBuffer s).events = s.events := rfl

@[simp] theorem flushBuffer_answerAt (s : State) (n' : Nat) :
    answerAt (flushBuffer s) n' = answerAt s n' := rfl

@[simp] theorem setCounter_events (a : Byte) (s : State) : (setCounter a s).events = s.events := rfl

@[simp] theorem setCounter_answerAt (a : Byte) (s : State) (n' : Nat) :
    answerAt (setCounter a s) n' = answerAt s n' := rfl

@[simp] theorem complete_events (c : Completion) (s : State) : (complete c s).events = s.events := rfl

@[simp] theorem complete_answerAt (c : Completion) (s : State) (n' : Nat) :
    answerAt (complete c s) n' = answerAt s n' := rfl

theorem tickOf_pos (c : Config) : 0 < tickOf c := by
  unfold tickOf
  omega

/-- Rounding to ticks rounds up, never down (40_timer.md R75(b)). -/
theorem le_roundUp (tick d : Nat) : d ≤ roundUp tick d := Nat.le_add_right _ _

/-- What is rounded up is a whole number of ticks. -/
theorem dvd_roundUp {tick : Nat} (pos : 0 < tick) (d : Nat) : tick ∣ roundUp tick d := by
  have below := Nat.mod_lt d pos
  have split := Nat.div_add_mod d tick
  unfold roundUp
  obtain none | some := Nat.eq_zero_or_pos (d % tick)
  · rw [none, Nat.sub_zero, Nat.mod_self, Nat.add_zero]
    exact Nat.dvd_of_mod_eq_zero none
  · rw [Nat.mod_eq_of_lt (by omega)]
    exact ⟨d / tick + 1, by rw [Nat.mul_add]; omega⟩

/-- Less than one tick is added. -/
theorem roundUp_lt (tick d : Nat) (pos : 0 < tick) : roundUp tick d < d + tick := by
  have := Nat.mod_lt (tick - d % tick) pos
  unfold roundUp
  omega

/-- No whole number of ticks from `d` on is less (40_timer.md R75(b)). -/
theorem roundUp_le {tick d n : Nat} (pos : 0 < tick) (whole : tick ∣ n) (enough : d ≤ n) : roundUp tick d ≤ n := by
  have above := roundUp_lt tick d pos
  obtain ⟨a, ha⟩ := dvd_roundUp pos d
  obtain ⟨b, rfl⟩ := whole
  rw [ha] at above ⊢
  apply Nat.mul_le_mul_left
  have : tick * a < tick * (b + 1) := by rw [Nat.mul_add]; omega
  have := Nat.lt_of_mul_lt_mul_left this
  omega

/-- A dwell takes at least the timing unit (42_phase_sequencer.md R90). -/
theorem dwell_now_ge (s : State) : s.now + s.config.tunit ≤ (dwell s).now := by
  have up := le_roundUp (tickOf s.config) s.config.tunit
  simp only [dwell, wait_now, enterStage_frame]
  omega

/-- A wait takes at least what was asked (40_timer.md R71). -/
theorem wait_now_ge (d : Nat) (s : State) : s.now + d ≤ (wait d s).now := by
  have up := le_roundUp (tickOf s.config) d
  simp only [wait_now]
  omega

/-- The end of an operation is a next state: Idle, with the result on its port. -/
theorem finish_eq (c : Completion) (s : State) : finish c s = .next (complete c s) := rfl

/-- What an operation answered when it completed. -/
theorem finish_inv {c : Completion} {s t : State} (h : finish c s = .next t) : t = complete c s :=
  (Host.Outcome.next.inj h).symm

/-- A line written and then read back. -/
@[simp] theorem outGet_outSet {α : Type} (ls : OutLines α) (l m : OutLine) (v : α) :
    outGet (outSet ls l v) m = if m = l then v else outGet ls m := by
  cases l <;> cases m <;> rfl

/-- A nibble written, line by line (20_memory.md R35). -/
@[simp] theorem outGet_outNibble (ls : OutLines (Option Level)) (n : Nibble) (l : OutLine) :
    outGet (outNibble ls n) l =
      match l with
      | .dataOut0 => some (n.getLsbD 0)
      | .dataOut1 => some (n.getLsbD 1)
      | .dataOut2 => some (n.getLsbD 2)
      | .dataOut3 => some (n.getLsbD 3)
      | .clk1 => ls.clk1
      | .clk2 => ls.clk2
      | .sync => ls.sync
      | .chipMatrixEnable => ls.chipMatrixEnable := by
  cases l <;> rfl

/-- The two samples make the byte `h ++ l` (30_encoding.md R54). -/
theorem orLowSample_highSample (h l : Nibble) : orLowSample (highSample h) l = h ++ l := by
  revert h l
  decide

end Sys2Proof.Machine
end

