-- ==== Sys2Proof/Laws/Kept.lean ====
section
/-! SUPPORT. Every operation is built from a few updates of the state: what each of them keeps, every operation keeps, and
every step keeps. The induction over slots, hooks and addresses is done once, here. -/

namespace Sys2Proof.Machine

/-- A property that the updates inside an operation keep: port primitives, waits, time, registers, position, counter, buffer. -/
structure Kept (P : State → Prop) : Prop where
  setLine : ∀ l v s, P s → P (setLine l v s)
  writeNibble : ∀ n s, P s → P (writeNibble n s)
  readNibble : ∀ s, P s → P (readNibble s)
  readLine : ∀ l s, P s → P (readLine l s)
  wait : ∀ d s, P s → P (wait d s)
  advance : ∀ d s, P s → P (advance d s)
  registers : ∀ c a r s, P s → P { s with cs := c, addr := a, result := r }
  position : ∀ p s, P s → P { s with pc := p }
  driver : ∀ c b s, P s → P { s with counter := c, buffer := b }

variable {P : State → Prop}

theorem Kept.dwell (k : Kept P) (s : State) (h : P s) : P (dwell s) := k.wait _ _ (k.position _ _ h)

theorem Kept.clockEdge (k : Kept P) (i : PhaseIndex) (s : State) (h : P s) : P (clockEdge i s) := by
  unfold Machine.clockEdge
  split <;> first | exact h | exact k.setLine _ _ _ (k.position _ _ h)

theorem Kept.runPhase (k : Kept P) (i : PhaseIndex) (s : State) (h : P s) : P (runPhase i s) :=
  k.dwell _ (k.clockEdge i _ (k.position _ _ h))

theorem Kept.runAction (k : Kept P) (a : HookAction) (s : State) (h : P s) : P (runAction a s) := by
  cases a with
  | setLine l v => exact k.setLine l v _ (k.position _ _ h)
  | readLine l => exact k.readLine l _ (k.position _ _ h)
  | wrNib v => exact k.writeNibble _ _ (k.position _ _ h)
  | rdNib use =>
    cases use with
    | discard => exact k.readNibble _ (k.position _ _ h)
    | resultHigh => exact k.registers _ _ _ _ (k.readNibble _ (k.position _ _ h))
    | resultLow => exact k.registers _ _ _ _ (k.readNibble _ (k.position _ _ h))
  | update u =>
    cases u with
    | cs n => exact k.registers (some n) s.addr s.result s h
    | addr a => exact k.registers s.cs (some a) s.result s h
    | result b => exact k.registers s.cs s.addr (some b) s h

theorem Kept.runActions (k : Kept P) (as : List HookAction) (s : State) (h : P s) : P (runActions as s) := by
  induction as generalizing s with
  | nil => exact h
  | cons a later ih => exact ih _ (k.runAction a s h)

theorem Kept.hookAndEdge (k : Kept P) (hooks : Hooks) (i : PhaseIndex) (s : State) (h : P s) :
    P (hookAndEdge hooks i s) := by
  unfold Machine.hookAndEdge
  split
  · exact k.clockEdge _ _ (k.runActions _ _ h)
  · exact k.runActions _ _ (k.clockEdge _ _ h)

theorem Kept.runSlot (k : Kept P) (hooks : Hooks) (i : PhaseIndex) (s : State) (h : P s) : P (runSlot hooks i s) :=
  k.dwell _ (k.hookAndEdge hooks i _ (k.position _ _ h))

theorem Kept.slots (k : Kept P) (hooks : Hooks) (is : List PhaseIndex) (s : State) (h : P s) :
    P (is.foldl (fun t i => Machine.runSlot hooks i t) s) := by
  induction is generalizing s with
  | nil => exact h
  | cons i later ih => exact ih _ (k.runSlot hooks i s h)

theorem Kept.runSubCycle (k : Kept P) (hooks : Hooks) (s : State) (h : P s) : P (runSubCycle hooks s) :=
  k.slots hooks _ s h

theorem Kept.entryLine (k : Kept P) (l : OutLine) (v : Level) (s : State) (h : P s) : P (entryLine l v s) :=
  k.setLine _ _ _ (k.position _ _ h)

theorem Kept.entryNibble (k : Kept P) (n : Nibble) (s : State) (h : P s) : P (entryNibble n s) :=
  k.writeNibble _ _ (k.position _ _ h)

theorem Kept.initStep (k : Kept P) (s : State) (h : P s) : P (initStep s) :=
  k.runSubCycle _ _ (k.entryLine _ _ _ (k.position _ _ h))

theorem Kept.addrLowStep (k : Kept P) (s : State) (h : P s) : P (addrLowStep s) :=
  k.runSubCycle _ _ (k.entryNibble _ _ (k.entryLine _ _ _ (k.position _ _ h)))

theorem Kept.addrHighStep (k : Kept P) (s : State) (h : P s) : P (addrHighStep s) :=
  k.runSubCycle _ _ (k.entryNibble _ _ (k.position _ _ h))

theorem Kept.chipSelectStep (k : Kept P) (s : State) (h : P s) : P (chipSelectStep s) :=
  k.runSubCycle _ _ (k.entryNibble _ _ (k.position _ _ h))

theorem Kept.dataHighStep (k : Kept P) (s : State) (h : P s) : P (dataHighStep s) :=
  k.runSubCycle _ _ (k.position _ _ h)

theorem Kept.dataLowStep (k : Kept P) (s : State) (h : P s) : P (dataLowStep s) :=
  k.runSubCycle _ _ (k.position _ _ h)

theorem Kept.trail1Step (k : Kept P) (s : State) (h : P s) : P (trail1Step s) :=
  k.runSubCycle _ _ (k.position _ _ h)

theorem Kept.trail2Step (k : Kept P) (s : State) (h : P s) : P (trail2Step s) :=
  k.runSubCycle _ _ (k.position _ _ h)

theorem Kept.trail3Step (k : Kept P) (s : State) (h : P s) : P (trail3Step s) :=
  k.runSubCycle _ _ (k.entryLine _ _ _ (k.position _ _ h))

theorem Kept.readWord (k : Kept P) (cs : Nat) (a : Byte) (s : State) (h : P s) : P (readWord cs a s) := by
  have loaded : P (writeAddr a (writeCs cs s)) := k.registers (some cs) (some a) s.result s h
  exact k.position _ _ (k.trail3Step _ (k.trail2Step _ (k.trail1Step _ (k.dataLowStep _ (k.dataHighStep _
    (k.chipSelectStep _ (k.addrHighStep _ (k.addrLowStep _ loaded))))))))

theorem Kept.scanWord (k : Kept P) (cs : Nat) (a : Byte) (s : State) (h : P s) : P (scanWord cs a s) := by
  have word := k.readWord cs a _ (k.driver (some a) s.buffer s h)
  exact k.driver (Machine.readWord cs a (setCounter a s)).counter _ _ word

theorem Kept.scanWords (k : Kept P) (cs : Nat) (as : List Nat) (s : State) (h : P s) : P (scanWords cs as s) := by
  induction as generalizing s with
  | nil => exact h
  | cons a later ih =>
    rw [Machine.scanWords, List.foldl_cons, ← Machine.scanWords]
    exact ih _ (k.scanWord cs (BitVec.ofNat 8 a) s h)

theorem Kept.scanLoop (k : Kept P) (cs : Nat) (s : State) (h : P s) : P (scanLoop cs s) := by
  have opened := k.position { (Machine.initStep (flushBuffer s)).pc with kind := .idle, stage := none } _
    (k.initStep _ (k.driver s.counter [] s h))
  unfold Machine.scanLoop
  exact k.scanWords cs (List.range 256) _ opened

/-- What an operation's body, the interrupt mask and the result port keep, every operation keeps. -/
theorem Kept.exec (k : Kept P)
    (mask : ∀ u e n s, P s → P { s with suppressed := u, irqEnabled := e, tokensIssued := n })
    (port : ∀ c s, P s → P { s with completion := c })
    {i : Instr} {s t : State} (run : exec i s = .next t) (h : P s) : P t := by
  have done {c : Completion} {u : State} (hu : P u) (e : finish c u = .next t) : P t := by
    cases e
    exact port c _ (k.position _ _ hu)
  cases i with
  | waitns d => exact done (k.wait d s h) run
  | setline name v =>
    cases name with
    | out l => exact done (k.setLine l v s h) run
    | inp l => cases run
  | readline name =>
    cases name with
    | inp l => exact done (k.readLine l s h) run
    | out l => cases run
  | wrnib v => exact done (k.writeNibble _ s h) run
  | rdnib => exact done (k.readNibble s h) run
  | imsuppress =>
    simp only [Machine.exec, execImsuppress] at run
    split at run
    · exact done (k.advance 0 _ (mask _ _ _ s h)) run
    · cases run
  | imrestore token =>
    simp only [Machine.exec, execImrestore] at run
    split at run
    · cases run
    · split at run
      · exact done (k.advance 0 _ (mask none _ s.tokensIssued s h)) run
      · cases run
  | phase0 => exact done (k.runPhase 0 s h) run
  | phase1 => exact done (k.runPhase 1 s h) run
  | phase2 => exact done (k.runPhase 2 s h) run
  | phase3 => exact done (k.runPhase 3 s h) run
  | phase4 => exact done (k.runPhase 4 s h) run
  | phase5 => exact done (k.runPhase 5 s h) run
  | phase6 => exact done (k.runPhase 6 s h) run
  | subcyc hooks =>
    simp only [Machine.exec, execSubcyc] at run
    split at run
    · exact done (k.runSubCycle hooks s h) run
    · cases run
  | init => exact done (k.initStep s h) run
  | addrlow => exact done (k.addrLowStep s h) run
  | addrhigh => exact done (k.addrHighStep s h) run
  | chipsel => exact done (k.chipSelectStep s h) run
  | datahigh => exact done (k.dataHighStep s h) run
  | datalow => exact done (k.dataLowStep s h) run
  | trail1 => exact done (k.trail1Step s h) run
  | trail2 => exact done (k.trail2Step s h) run
  | trail3 => exact done (k.trail3Step s h) run
  | readword cs a => exact done (k.readWord cs a s h) run
  | scan cs =>
    have looped := k.driver (Machine.scanLoop cs s).counter [] _ (k.scanLoop cs s h)
    simp only [Machine.exec, execScan] at run
    exact done looped run

/-- IMSUPPRESS completes only with no suppression outstanding, and then hands out the next token. -/
theorem execImsuppress_cases {s t : State} (run : execImsuppress s = .next t) :
    s.suppressed = none ∧ t = complete (.token s.tokensIssued) (suppress s) := by
  unfold execImsuppress at run
  split at run
  · exact ⟨‹_›, finish_inv run⟩
  · cases run

/-- IMRESTORE completes only on the outstanding token, and then enables what that token captured. -/
theorem execImrestore_cases {token : Nat} {s t : State} (run : execImrestore token s = .next t) :
    ∃ p, s.suppressed = some p ∧ p.token = token ∧ t = complete .nothing (restore p.captured s) := by
  unfold execImrestore at run
  split at run
  · cases run
  · split at run
    · exact ⟨_, ‹_›, ‹_›, finish_inv run⟩
    · cases run

/-- One step: nothing happens, or the next request's operation runs on the state with that request taken off. -/
theorem step_cases {s t : State} (run : step s = .next t) :
    (s.requests = [] ∧ t = s) ∨
    ∃ r later i, s.requests = r :: later ∧ decode r = .ok i ∧ exec i { s with requests := later } = .next t := by
  unfold step at run
  split at run
  · cases run
  · split at run
    · exact .inl ⟨‹_›, (Host.Outcome.next.inj run).symm⟩
    · split at run
      · cases run
      · exact .inr ⟨_, _, _, ‹_›, ‹_›, run⟩

/-- What every operation keeps, every step keeps, if taking a request off the list keeps it too. -/
theorem Kept.step (k : Kept P)
    (mask : ∀ u e n s, P s → P { s with suppressed := u, irqEnabled := e, tokensIssued := n })
    (port : ∀ c s, P s → P { s with completion := c })
    (taken : ∀ rs s, P s → P { s with requests := rs })
    {s t : State} (run : step s = .next t) (h : P s) : P t := by
  obtain ⟨-, rfl⟩ | ⟨r, later, i, -, -, ran⟩ := step_cases run
  · exact h
  · exact k.exec mask port ran (taken later s h)

end Sys2Proof.Machine
end

