-- ==== Sys2Proof/Laws/PerInstr.lean ====
section
/-! SUPPORT. The encoded byte of every operation, one lemma for each constructor (30_encoding.md R51, R58). -/

namespace Sys2Proof.Laws.EncodedByte

/-- The family each operation belongs to (30_encoding.md R51): leaf primitives, phase sequencer, cycle steps,
composites. -/
def family : Instr → Nat
  | .waitns _ | .setline _ _ | .readline _ | .wrnib _ | .rdnib | .imsuppress | .imrestore _ => 0
  | .phase0 | .phase1 | .phase2 | .phase3 | .phase4 | .phase5 | .phase6 | .subcyc _ => 1
  | .init | .addrlow | .addrhigh | .chipsel | .datahigh | .datalow | .trail1 | .trail2 | .trail3 => 2
  | .readword _ _ | .scan _ => 3

/-- The member of its family each operation is (30_encoding.md R51). -/
def member : Instr → Nat
  | .waitns _ | .phase0 | .init | .readword _ _ => 0
  | .setline _ _ | .phase1 | .addrlow | .scan _ => 1
  | .readline _ | .phase2 | .addrhigh => 2
  | .wrnib _ | .phase3 | .chipsel => 3
  | .rdnib | .phase4 | .datahigh => 4
  | .imsuppress | .phase5 | .datalow => 5
  | .imrestore _ | .phase6 | .trail1 => 6
  | .trail2 => 7
  | .subcyc _ | .trail3 => 8

/-- The byte of an operation carries its family in the high nibble and its member in the low one, whatever its operands
(30_encoding.md R51, R58). -/
def Statement (i : Instr) : Prop :=
  familyOf (encode i).op = family i ∧ memberOf (encode i).op = member i

theorem waitns (d : Nat) : Statement (.waitns d) :=
  by simp [Statement, encode, opcode, familyOf, memberOf, family, member]

theorem setline (name : Line) (level : Level) : Statement (.setline name level) :=
  by simp [Statement, encode, opcode, familyOf, memberOf, family, member]

theorem readline (name : Line) : Statement (.readline name) :=
  by simp [Statement, encode, opcode, familyOf, memberOf, family, member]

theorem wrnib (v : Nat) : Statement (.wrnib v) :=
  by simp [Statement, encode, opcode, familyOf, memberOf, family, member]

theorem rdnib : Statement .rdnib :=
  by simp [Statement, encode, opcode, familyOf, memberOf, family, member]

theorem imsuppress : Statement .imsuppress :=
  by simp [Statement, encode, opcode, familyOf, memberOf, family, member]

theorem imrestore (token : Nat) : Statement (.imrestore token) :=
  by simp [Statement, encode, opcode, familyOf, memberOf, family, member]

theorem phase0 : Statement .phase0 :=
  by simp [Statement, encode, opcode, familyOf, memberOf, family, member]

theorem phase1 : Statement .phase1 :=
  by simp [Statement, encode, opcode, familyOf, memberOf, family, member]

theorem phase2 : Statement .phase2 :=
  by simp [Statement, encode, opcode, familyOf, memberOf, family, member]

theorem phase3 : Statement .phase3 :=
  by simp [Statement, encode, opcode, familyOf, memberOf, family, member]

theorem phase4 : Statement .phase4 :=
  by simp [Statement, encode, opcode, familyOf, memberOf, family, member]

theorem phase5 : Statement .phase5 :=
  by simp [Statement, encode, opcode, familyOf, memberOf, family, member]

theorem phase6 : Statement .phase6 :=
  by simp [Statement, encode, opcode, familyOf, memberOf, family, member]

theorem subcyc (hooks : Hooks) : Statement (.subcyc hooks) :=
  by simp [Statement, encode, opcode, familyOf, memberOf, family, member]

theorem init : Statement .init :=
  by simp [Statement, encode, opcode, familyOf, memberOf, family, member]

theorem addrlow : Statement .addrlow :=
  by simp [Statement, encode, opcode, familyOf, memberOf, family, member]

theorem addrhigh : Statement .addrhigh :=
  by simp [Statement, encode, opcode, familyOf, memberOf, family, member]

theorem chipsel : Statement .chipsel :=
  by simp [Statement, encode, opcode, familyOf, memberOf, family, member]

theorem datahigh : Statement .datahigh :=
  by simp [Statement, encode, opcode, familyOf, memberOf, family, member]

theorem datalow : Statement .datalow :=
  by simp [Statement, encode, opcode, familyOf, memberOf, family, member]

theorem trail1 : Statement .trail1 :=
  by simp [Statement, encode, opcode, familyOf, memberOf, family, member]

theorem trail2 : Statement .trail2 :=
  by simp [Statement, encode, opcode, familyOf, memberOf, family, member]

theorem trail3 : Statement .trail3 :=
  by simp [Statement, encode, opcode, familyOf, memberOf, family, member]

theorem readword (cs : Nat) (addr : Byte) : Statement (.readword cs addr) :=
  by simp [Statement, encode, opcode, familyOf, memberOf, family, member]

theorem scan (cs : Nat) : Statement (.scan cs) :=
  by simp [Statement, encode, opcode, familyOf, memberOf, family, member]

end Sys2Proof.Laws.EncodedByte
end

