-- ==== Sys2Proof/Laws/Phase.lean ====
section
/-! SUPPORT. What an edge, a hook and a slot do, said once: events, lines, registers, draws and
position. -/

namespace Sys2Proof.Machine

open Sys2Proof.Safety

/-- What a part of a sub-cycle leaves as it was, whatever it performs. -/
structure SlotFrame (s t : State) : Prop where
  config : t.config = s.config
  counter : t.counter = s.counter
  buffer : t.buffer = s.buffer
  suppressed : t.suppressed = s.suppressed
  irqEnabled : t.irqEnabled = s.irqEnabled
  tokensIssued : t.tokensIssued = s.tokensIssued
  requests : t.requests = s.requests
  completion : t.completion = s.completion
  kind : t.pc.kind = s.pc.kind
  phase : t.pc.phase = s.pc.phase

theorem SlotFrame.refl (s : State) : SlotFrame s s := ⟨rfl, rfl, rfl, rfl, rfl, rfl, rfl, rfl, rfl, rfl⟩

theorem SlotFrame.trans {s t u : State} (a : SlotFrame s t) (b : SlotFrame t u) : SlotFrame s u :=
  ⟨b.1.trans a.1, b.2.trans a.2, b.3.trans a.3, b.4.trans a.4, b.5.trans a.5, b.6.trans a.6, b.7.trans a.7,
    b.8.trans a.8, b.9.trans a.9, b.10.trans a.10⟩

/-- What a part of a sub-cycle did: it performed `es`, took `n` samples, the lines follow the events, and the clock did
not go back. -/
structure Ran (es : List Event) (n : Nat) (s t : State) : Prop where
  events : t.events = s.events ++ es
  lines : t.lines = replay es s.lines
  answers : t.answers = s.answers.drop n
  sampleCount : t.sampleCount = s.sampleCount + n
  delays : t.delays = s.delays.drop (es.length + es.countP isDwell)
  delayCount : t.delayCount = s.delayCount + (es.length + es.countP isDwell)
  now : s.now ≤ t.now

theorem Ran.refl (s : State) : Ran [] 0 s s := ⟨by simp, rfl, rfl, rfl, rfl, rfl, le_rfl⟩

theorem Ran.trans {es fs : List Event} {m n : Nat} {s t u : State} (a : Ran es m s t) (b : Ran fs n t u) :
    Ran (es ++ fs) (m + n) s u := by
  constructor
  · rw [b.events, a.events, List.append_assoc]
  · rw [b.lines, a.lines]; simp [replay]
  · rw [b.answers, a.answers, List.drop_drop]
  · rw [b.sampleCount, a.sampleCount]; omega
  · rw [b.delays, a.delays, List.drop_drop]; congr 1; simp; omega
  · rw [b.delayCount, a.delayCount]; simp; omega
  · exact a.now.trans b.now

/-- The coming answers move up by the samples taken. -/
theorem Ran.answerAt {es : List Event} {n : Nat} {s t : State} (a : Ran es n s t) (k : Nat) :
    answerAt t k = answerAt s (n + k) := by
  simp [Machine.answerAt, a.answers, a.sampleCount, Nat.add_assoc]

theorem setLine_ran (l : OutLine) (v : Level) (s : State) : Ran [.set l v] 0 s (setLine l v s) := by
  constructor <;> simp [replay, applyEvent, isDwell]

theorem writeNibble_ran (n : Nibble) (s : State) : Ran [.wrNib n] 0 s (writeNibble n s) := by
  constructor <;> simp [replay, applyEvent, isDwell]

theorem readNibble_ran (s : State) : Ran [.rdNib (answerAt s 0)] 1 s (readNibble s) := by
  constructor <;> simp [replay, applyEvent, isDwell]

theorem readLine_ran (l : InLine) (s : State) :
    Ran [.rd l (inputBit (Machine.answerAt s 0) l)] 1 s (readLine l s) := by
  constructor <;> simp [replay, applyEvent, isDwell]

theorem wait_ran (d : Nat) (s : State) : Ran [.dwell d] 0 s (wait d s) where
  events := wait_events d s
  lines := rfl
  answers := rfl
  sampleCount := rfl
  delays := by simp [isDwell, ← List.drop_one, List.drop_drop]
  delayCount := rfl
  now := by rw [wait_now]; omega

theorem dwell_ran (s : State) : Ran [.dwell s.config.tunit] 0 s (dwell s) :=
  have r := wait_ran s.config.tunit (enterStage .dwell s)
  ⟨r.1, r.2, r.3, r.4, r.5, r.6, r.7⟩

/-- The clock edge of a phase (42_phase_sequencer.md R90). -/
theorem clockEdge_ran (i : PhaseIndex) (s : State) : Ran (edgeEvents i) 0 s (clockEdge i s) := by
  have edge (l : OutLine) (v : Level) : Ran [.set l v] 0 s (setLine l v (enterStage .edge s)) :=
    have r := setLine_ran l v (enterStage .edge s)
    ⟨r.1, r.2, r.3, r.4, r.5, r.6, r.7⟩
  unfold clockEdge edgeEvents
  split <;> first | exact Ran.refl s | exact edge _ _

theorem clockEdge_frame (i : PhaseIndex) (s : State) :
    SlotFrame s (clockEdge i s) ∧ (clockEdge i s).cs = s.cs ∧ (clockEdge i s).addr = s.addr ∧
      (clockEdge i s).result = s.result := by
  unfold clockEdge
  split <;> exact ⟨⟨rfl, rfl, rfl, rfl, rfl, rfl, rfl, rfl, rfl, rfl⟩, rfl, rfl, rfl⟩

/-- The number `WRNIB` writes, as the rule writes it: `v & 0xF` (41_digital_port.md R83). -/
theorem writtenNibble_eq (v : Nat) : writtenNibble v = BitVec.ofNat 4 (v % 16) := by
  apply BitVec.eq_of_toNat_eq
  simp [writtenNibble]

/-- One hook action (30_encoding.md R64). -/
theorem runAction_ran (a : HookAction) (s : State) :
    Ran (actionEvents s 0 a) (actionSamples a) s (runAction a s) := by
  cases a with
  | setLine l v =>
    have r := setLine_ran l v (enterStage .hook s)
    exact ⟨r.1, r.2, r.3, r.4, r.5, r.6, r.7⟩
  | readLine l =>
    have r := readLine_ran l (enterStage .hook s)
    exact ⟨r.1, r.2, r.3, r.4, r.5, r.6, r.7⟩
  | wrNib v =>
    have r := writeNibble_ran (writtenNibble v) (enterStage .hook s)
    rw [writtenNibble_eq] at r
    have e : runAction (.wrNib v) s = writeNibble (BitVec.ofNat 4 (v % 16)) (enterStage .hook s) := by
      rw [runAction, writtenNibble_eq]
    rw [e]
    exact ⟨r.1, r.2, r.3, r.4, r.5, r.6, r.7⟩
  | rdNib use =>
    have r := readNibble_ran (enterStage .hook s)
    cases use <;> exact ⟨r.1, r.2, r.3, r.4, r.5, r.6, r.7⟩
  | update u => cases u <;> exact ⟨(Ran.refl s).1, rfl, rfl, rfl, rfl, rfl, le_rfl⟩

theorem runAction_frame (a : HookAction) (s : State) : SlotFrame s (runAction a s) := by
  cases a with
  | rdNib use => cases use <;> exact ⟨rfl, rfl, rfl, rfl, rfl, rfl, rfl, rfl, rfl, rfl⟩
  | update u => cases u <;> exact ⟨rfl, rfl, rfl, rfl, rfl, rfl, rfl, rfl, rfl, rfl⟩
  | setLine l v => exact ⟨rfl, rfl, rfl, rfl, rfl, rfl, rfl, rfl, rfl, rfl⟩
  | readLine l => exact ⟨rfl, rfl, rfl, rfl, rfl, rfl, rfl, rfl, rfl, rfl⟩
  | wrNib v => exact ⟨rfl, rfl, rfl, rfl, rfl, rfl, rfl, rfl, rfl, rfl⟩

/-- The events of a hook depend on the coming answers alone. -/
theorem hookEvents_shift {s t : State} {n : Nat} (h : ∀ k, answerAt t k = answerAt s (n + k)) (as : List HookAction) :
    ∀ k, hookEvents t k as = hookEvents s (n + k) as := by
  induction as with
  | nil => intro k; rfl
  | cons a later ih =>
    intro k
    have e : actionEvents t k a = actionEvents s (n + k) a := by cases a <;> simp [actionEvents, h]
    rw [hookEvents, hookEvents, e, ih, Nat.add_assoc]

/-- A hook: its actions in order (30_encoding.md R64). -/
theorem runActions_ran (as : List HookAction) (s : State) :
    Ran (hookEvents s 0 as) (samplesOf as) s (runActions as s) := by
  induction as generalizing s with
  | nil => exact Ran.refl s
  | cons a later ih =>
    have first := runAction_ran a s
    have rest := ih (runAction a s)
    rw [hookEvents_shift first.answerAt later 0] at rest
    have samples : samplesOf (a :: later) = actionSamples a + samplesOf later := by simp [samplesOf]
    have actions : hookEvents s 0 (a :: later) = actionEvents s 0 a ++ hookEvents s (actionSamples a + 0) later := by
      rw [hookEvents, Nat.add_comm]
    rw [samples, actions]
    exact first.trans rest

theorem runActions_frame (as : List HookAction) (s : State) : SlotFrame s (runActions as s) := by
  induction as generalizing s with
  | nil => exact SlotFrame.refl s
  | cons a later ih => exact (runAction_frame a s).trans (ih _)

/-- The trace grew by events at these places of kind `k` (10_state.md R14, R15). -/
def Placed (k : Kind) (ps : List Place) (s t : State) : Prop :=
  ∃ new, t.trace = s.trace ++ new ∧ new.map Stamp.pc = ps.map (placeAt k)

theorem Placed.wentThrough {k : Kind} {ps : List Place} {s t : State} (a : Placed k ps s t) : WentThrough k ps s t := by
  obtain ⟨new, grew, places⟩ := a
  rw [WentThrough, newPlaces, newStamps, grew, List.drop_left, places]

theorem Placed.trans {k : Kind} {ps qs : List Place} {s t u : State} (a : Placed k ps s t) (b : Placed k qs t u) :
    Placed k (ps ++ qs) s u := by
  obtain ⟨new, grew, places⟩ := a
  obtain ⟨later, grew', places'⟩ := b
  exact ⟨new ++ later, by rw [grew', grew, List.append_assoc], by rw [List.map_append, List.map_append, places, places']⟩

/-- Nothing was performed. -/
theorem Placed.none (k : Kind) {s t : State} (same : t.log = s.log) : Placed k [] s t :=
  ⟨[], by simp [State.trace, same], rfl⟩

/-- One event was performed. -/
theorem Placed.one {k : Kind} {p : Place} {s t : State} {st : Stamp} (grew : t.log = st :: s.log)
    (place : st.pc = placeAt k p) : Placed k [p] s t :=
  ⟨[st], by simp [State.trace, grew], by rw [List.map_singleton, List.map_singleton, place]⟩

/-- A clock edge stands at its phase and the stage `edge`. -/
theorem clockEdge_placed {i : PhaseIndex} {s : State} (at_i : s.pc.phase = i) :
    Placed s.pc.kind (edgePlaces i) s (clockEdge i s) := by
  unfold clockEdge edgePlaces
  split <;> first | exact Placed.none _ rfl | exact Placed.one (setLine_log _ _ _) (by simp [placeAt, at_i])

/-- A hook's events stand at the phase and the stage `hook`. -/
theorem runActions_placed (as : List HookAction) (s : State) :
    Placed s.pc.kind (List.replicate (eventsOf as) (s.pc.phase, .hook)) s (runActions as s) := by
  induction as generalizing s with
  | nil => exact Placed.none _ rfl
  | cons a later ih =>
    have first : Placed s.pc.kind (List.replicate (eventsOf [a]) (s.pc.phase, .hook)) s (runAction a s) := by
      cases a with
      | rdNib use => cases use <;> exact Placed.one rfl rfl
      | update u => cases u <;> exact Placed.none _ rfl
      | setLine l v => exact Placed.one rfl rfl
      | readLine l => exact Placed.one rfl rfl
      | wrNib v => exact Placed.one rfl rfl
    have rest := ih (runAction a s)
    rw [(runAction_frame a s).kind, (runAction_frame a s).phase] at rest
    have both := first.trans rest
    have counted : eventsOf [a] + eventsOf later = eventsOf (a :: later) := by
      unfold eventsOf
      rw [← List.countP_append, List.singleton_append]
    rwa [List.replicate_append_replicate, counted] at both

/-- The actions a map holds at an index are those of its one entry there (30_encoding.md R64). -/
theorem hookAt_eq {hooks : Hooks} (once : (hooks.map Prod.fst).Nodup) (i : PhaseIndex) :
    hookAt hooks i = actionsAt hooks i := by
  induction hooks with
  | nil => rfl
  | cons h later ih =>
    obtain ⟨fresh, once⟩ := List.nodup_cons.mp once
    have ih := ih once
    by_cases e : h.1 = i.val
    · have none_later : actionsAt later i = [] := by
        simp only [actionsAt, List.flatMap_eq_nil_iff]
        intro g hg
        rw [if_neg]
        intro same
        exact fresh (e.trans same.symm ▸ List.mem_map_of_mem hg)
      have e' : (i.val == h.1) = true := by simp [e]
      have here : actionsAt (h :: later) i = h.2 ++ actionsAt later i := by simp [actionsAt, e]
      have found : hookAt (h :: later) i = h.2 := by simp [hookAt, List.lookup, e']
      rw [here, none_later, found, List.append_nil]
    · have e' : (i.val == h.1) = false := by simp [Ne.symm e]
      have here : actionsAt (h :: later) i = actionsAt later i := by simp [actionsAt, e]
      have passed : hookAt (h :: later) i = hookAt later i := by simp [hookAt, List.lookup, e']
      rw [here, passed, ih]

/-- The hook operand is a partial map from 0..6 (30_encoding.md R59(b), R64) exactly when it has no defect. -/
theorem hooksDefect_none_iff (hooks : Hooks) :
    hooksDefect hooks = none ↔ (∀ h ∈ hooks, h.1 < 7) ∧ (hooks.map Prod.fst).Nodup := by
  induction hooks with
  | nil => simp [hooksDefect]
  | cons h later ih =>
    simp only [hooksDefect, List.mem_cons, List.map_cons, List.nodup_cons, forall_eq_or_imp]
    split
    · simp; omega
    · split
      · simp_all
      · rw [ih]
        constructor
        · rintro ⟨a, b⟩; exact ⟨⟨by omega, a⟩, by assumption, b⟩
        · rintro ⟨⟨-, a⟩, -, b⟩; exact ⟨a, b⟩

end Sys2Proof.Machine
end

