-- ==== Sys2Proof/Tests/Slice0.lean ====
section
/-! SUPPORT. Tests on small states. Expected values come from spec/95_test_vectors.md and from the encoding tables of
30_encoding.md; each comment names its source. The `witness_` theorems show that the hypotheses of the statements can be met. -/

namespace Sys2Proof.Tests

open Sys2Proof.Machine Sys2Proof.Safety

/-- A platform with every parameter written out: a timing unit of 200 ns, all lines active high. -/
def platform (order : HookOrder) : Config :=
  { hookOrder := order, tunit := 200, clockRes := 1, lineReset := Config.unwrittenLines
    outPolarity :=
      { dataOut0 := .activeHigh, dataOut1 := .activeHigh, dataOut2 := .activeHigh, dataOut3 := .activeHigh,
        clk1 := .activeHigh, clk2 := .activeHigh, sync := .activeHigh, chipMatrixEnable := .activeHigh }
    inPolarity :=
      { dataIn0 := .activeHigh, dataIn1 := .activeHigh, dataIn2 := .activeHigh, dataIn3 := .activeHigh }
    maskEffective := true, exitFail := 1 }

/-- Reset on that platform at clock 1000, with two interrupt sources enabled, the lines to show `vs` and 200 draws of no
delay. -/
def start (order : HookOrder) (vs : List Nibble) : State :=
  { State.resetOn (platform order) 1000 [3, 7] with answers := vs, delays := List.replicate 200 0 }

/-- The start state with the lines at rest (10_state.md R24) and the operands of 95_test_vectors.md 2.7. -/
def rested (order : HookOrder) (vs : List Nibble) : State :=
  { start order vs with lines := restLines, cs := some 13, addr := some 0x3C }

/-- What holds of the next state an operation answers, if it answers one. -/
def shown {α : Type} (a : Answer) (f : State → α) : Option α :=
  match a with
  | .next t => some (f t)
  | .fault _ | .refused _ => none

/-! ### Ill-formed operations (95_test_vectors.md 2.2 and 2.3; 30_encoding.md R59, R64) -/

theorem test_setline_on_an_input_line_is_ill_formed :
    ¬ (Instr.setline (.inp .dataIn0) true).WellFormed ∧ (Instr.setline (.out .dataOut0) true).WellFormed := by decide

theorem test_readline_on_an_output_line_is_ill_formed :
    ¬ (Instr.readline (.out .clk1)).WellFormed ∧ (Instr.readline (.inp .dataIn1)).WellFormed := by decide

theorem test_hook_at_phase_seven_is_ill_formed :
    ¬ (Instr.subcyc [(7, [])]).WellFormed ∧ (Instr.subcyc [(6, [])]).WellFormed := by decide

theorem test_two_hooks_at_one_phase_are_ill_formed :
    (Instr.subcyc [(0, []), (5, []), (0, [.wrNib 1])]).defect = some (.repeatedHook 0) := by decide

/-! ### Decoding: the bytes of 30_encoding.md R58, written out as `{family, member}` (R51) -/

theorem test_decode_leaf_bytes :
    decode { op := 0b00000000, ports := { d := 200 } } = .ok (.waitns 200) ∧
    decode { op := 0b00000001, ports := { outName := .out .clk2, level := Level.A } } =
      .ok (.setline (.out .clk2) Level.A) ∧
    decode { op := 0b00000010, ports := { inName := .inp .dataIn1 } } = .ok (.readline (.inp .dataIn1)) ∧
    decode { op := 0b00000011, ports := { v := 0x1B } } = .ok (.wrnib 0x1B) ∧
    decode { op := 0b00000100 } = .ok .rdnib ∧
    decode { op := 0b00000101 } = .ok .imsuppress ∧
    decode { op := 0b00000110, ports := { token := 9 } } = .ok (.imrestore 9) := by decide

theorem test_decode_phase_bytes :
    decode { op := 0b00010000 } = .ok .phase0 ∧ decode { op := 0b00010001 } = .ok .phase1 ∧
    decode { op := 0b00010010 } = .ok .phase2 ∧ decode { op := 0b00010011 } = .ok .phase3 ∧
    decode { op := 0b00010100 } = .ok .phase4 ∧ decode { op := 0b00010101 } = .ok .phase5 ∧
    decode { op := 0b00010110 } = .ok .phase6 ∧
    decode { op := 0b00011000, ports := { hooks := [(3, [.setLine .chipMatrixEnable Level.A])] } } =
      .ok (.subcyc [(3, [.setLine .chipMatrixEnable Level.A])]) := by decide

theorem test_decode_cycle_bytes :
    decode { op := 0b00100000 } = .ok .init ∧ decode { op := 0b00100001 } = .ok .addrlow ∧
    decode { op := 0b00100010 } = .ok .addrhigh ∧ decode { op := 0b00100011 } = .ok .chipsel ∧
    decode { op := 0b00100100 } = .ok .datahigh ∧ decode { op := 0b00100101 } = .ok .datalow ∧
    decode { op := 0b00100110 } = .ok .trail1 ∧ decode { op := 0b00100111 } = .ok .trail2 ∧
    decode { op := 0b00101000 } = .ok .trail3 := by decide

theorem test_decode_composite_bytes :
    decode { op := 0b00110000, ports := { cs := 13, addr := 0x3C } } = .ok (.readword 13 0x3C) ∧
    decode { op := 0b00110001, ports := { cs := 13 } } = .ok (.scan 13) := by decide

/-- The refused bytes of 95_test_vectors.md 4, with their accepted neighbours. -/
theorem test_decode_refuses_reserved_bytes :
    decodeTableWord 8 0x07 = none ∧ decodeTableWord 8 0x17 = none ∧ decodeTableWord 8 0x19 = none ∧
    decodeTableWord 8 0x29 = none ∧ decodeTableWord 8 0x32 = none ∧ decodeTableWord 8 0x40 = none ∧
    decodeTableWord 8 0x06 = some (.imrestore 0) ∧ decodeTableWord 8 0x16 = some .phase6 ∧
    decodeTableWord 8 0x18 = some (.subcyc []) ∧ decodeTableWord 8 0x28 = some .trail3 ∧
    decodeTableWord 8 0x31 = some (.scan 0) := by decide

/-! ### The step -/

/-- A placed word is the first thing that runs after reset (30_encoding.md R63). -/
theorem test_step_runs_a_placed_phase :
    step (State.reset.withFetchWord 8 0x12) = exec .phase2 State.reset := by rfl

theorem test_step_refuses_a_reserved_byte :
    step (State.reset.withFetchWord 8 0x17) = .refused (.reservedOperation 0x17) := by rfl

theorem test_step_refuses_a_wrong_direction_line :
    step { State.reset with requests := [{ op := 0x01, ports := { outName := .inp .dataIn0 } }] } =
      .refused (.illFormed (.notAnOutputLine .dataIn0)) := by rfl

/-! ### The timer (95_test_vectors.md 2.1) -/

theorem test_poll_loop_rows :
    pollLoop 1000 200 [1050, 1130, 1199, 1203] = some 1203 ∧ pollLoop 1000 200 [1200] = some 1200 ∧
    pollLoop 5000 0 [5000] = some 5000 ∧ pollLoop 1000 193 [1000, 1100, 1200] = some 1200 ∧
    pollLoop 1000 200 [1040, 951000] = some 951000 ∧ pollLoop 7 1 [7, 8] = some 8 ∧
    pollLoop 1000 200 [1199] = none := by decide

/-- Program 5's first wait: 200 ns asked at 1000, 10 ns over. -/
theorem test_waitns_overshoots :
    shown (exec (.waitns 200) { start .hookThenEdge [] with delays := [0, 10] })
      (fun t => (t.now, t.events, t.pc.kind)) = some (1210, [.dwell 200], .idle) := by decide

/-- The row of the clock that ticks every 100: 193 ns asked at 1000 end at 1200, and 200 ns end there too. -/
theorem test_waitns_rounds_up_to_a_tick :
    shown (exec (.waitns 193) { State.resetOn { platform .hookThenEdge with clockRes := 100 } 1000 [] with
      delays := [0, 0] }) State.now = some 1200 ∧
    shown (exec (.waitns 200) { State.resetOn { platform .hookThenEdge with clockRes := 100 } 1000 [] with
      delays := [0, 0] }) State.now = some 1200 := by decide

/-! ### The port (95_test_vectors.md 2.2) -/

theorem test_wrnib_drops_high_bits :
    shown (exec (.wrnib 0x1B) (start .hookThenEdge [])) (fun t => (t.lines.dataOut0, t.lines.dataOut1, t.lines.dataOut2,
      t.lines.dataOut3, t.events)) = some (some true, some true, some false, some true, [.wrNib 0xB]) := by decide

theorem test_rdnib_returns_the_lines :
    shown (exec .rdnib (start .hookThenEdge [0xA])) State.completion = some (.nibble 0xA) := by decide

/-- Lines `{0,0,0,1}` are the nibble `0x8`. -/
theorem test_readline_takes_its_own_bit :
    shown (exec (.readline (.inp .dataIn3)) (start .hookThenEdge [0x8])) State.completion = some (.level true) ∧
    shown (exec (.readline (.inp .dataIn0)) (start .hookThenEdge [0x8])) State.completion = some (.level false) := by
  decide

theorem test_setline_twice_is_two_events :
    shown (exec (.setline (.out .sync) Level.A) (start .hookThenEdge [])) (fun t =>
      shown (exec (.setline (.out .sync) Level.A) t) (fun u => (u.lines.sync, u.events))) =
    some (some (some Level.A, [.set .sync Level.A, .set .sync Level.A])) := by decide

/-! ### The interrupt mask (41_digital_port.md R86, R87; 95_test_vectors.md 4) -/

theorem test_suppress_then_restore_once :
    shown (exec .imsuppress (start .hookThenEdge [])) (fun t => (t.completion, t.irqEnabled,
      shown (exec (.imrestore 0) t) (fun u => (u.irqEnabled, shown (exec (.imrestore 0) u) State.completion)))) =
    some (.token 0, [], some ([3, 7], none)) := by decide

/-! ### The phase sequencer (95_test_vectors.md 2.3, 2.4) -/

theorem test_phase0_from_reset :
    shown (exec .phase0 (start .hookThenEdge [])) (fun t => (t.lines.clk1, t.lines.clk2, t.events)) =
      some (none, some Level.N, [.set .clk2 Level.N, .dwell 200]) := by decide

theorem test_phase5_asserts_clk2 :
    shown (exec .phase5 (rested .hookThenEdge [])) (fun t => (t.lines.clk2, t.pc.phase, t.events)) =
      some (some Level.A, 5, [.set .clk2 Level.A, .dwell 200]) := by decide

/-- The row `{0: H0; 5: H5}` in either order. -/
theorem test_hooks_stand_on_their_side_of_the_edge :
    shown (exec (.subcyc [(5, [.wrNib 5]), (0, [.wrNib 1])]) (rested .hookThenEdge [])) State.events =
      some [.wrNib 1, .set .clk2 false, .dwell 200, .set .clk1 true, .dwell 200, .dwell 200, .set .clk1 false,
        .dwell 200, .dwell 200, .wrNib 5, .set .clk2 true, .dwell 200, .dwell 200] ∧
    shown (exec (.subcyc [(5, [.wrNib 5]), (0, [.wrNib 1])]) (rested .edgeThenHook [])) State.events =
      some [.set .clk2 false, .wrNib 1, .dwell 200, .set .clk1 true, .dwell 200, .dwell 200, .set .clk1 false,
        .dwell 200, .dwell 200, .set .clk2 true, .wrNib 5, .dwell 200, .dwell 200] := by decide +kernel

/-- The timestamps of the plain sub-cycle with no delay. -/
theorem test_plain_subcycle_timestamps :
    shown (exec (.subcyc []) { rested .hookThenEdge [] with now := 0 }) (fun t =>
      (t.now, (t.trace.filter fun st => !isDwell st.event).map fun st => (st.event, st.start))) =
      some (1400, [(.set .clk2 false, 0), (.set .clk1 true, 200), (.set .clk1 false, 600), (.set .clk2 true, 1000)]) := by
  decide +kernel

/-! ### The cycle steps (95_test_vectors.md 2.7, S8) -/

theorem test_addrlow_drives_the_low_nibble :
    shown (exec .addrlow (rested .hookThenEdge [])) (fun t => (t.events.take 2, t.lines.dataOut0, t.lines.dataOut1,
      t.lines.dataOut2, t.lines.dataOut3)) =
      some ([.set .sync false, .wrNib 0xC], some false, some false, some true, some true) := by decide +kernel

/-- S8: address `0xAB`. -/
theorem test_addrhigh_of_0xAB :
    shown (exec .addrhigh { rested .hookThenEdge [] with addr := some 0xAB }) (fun t => (t.lines.dataOut0,
      t.lines.dataOut1, t.lines.dataOut2, t.lines.dataOut3)) =
      some (some false, some true, some false, some true) := by decide +kernel

theorem test_chipsel_cuts_13_to_5 :
    shown (exec .chipsel (rested .hookThenEdge [])) State.events =
      some [.wrNib 5, .set .clk2 false, .dwell 200, .set .clk1 true, .dwell 200, .dwell 200,
        .set .chipMatrixEnable true, .set .clk1 false, .dwell 200, .dwell 200, .set .clk2 true, .dwell 200,
        .dwell 200] := by decide +kernel

/-- The stages of 10_state.md R15 around the hook of ChipSelect, in the second order. -/
theorem test_chipsel_stages :
    shown (exec .chipsel (rested .edgeThenHook [])) (fun t => (t.trace.map fun st => (st.pc.phase, st.pc.stage)).take 9) =
      some [(0, some .entry), (0, some .edge), (0, some .dwell), (1, some .edge), (1, some .dwell), (2, some .dwell),
        (3, some .edge), (3, some .hook), (3, some .dwell)] := by decide +kernel

/-- Table 2.6 with a stale result of `0xFF`. -/
theorem test_datahigh_clears_the_stale_nibble :
    shown (exec .datahigh { rested .hookThenEdge [0x1] with result := some 0xFF }) State.result =
      some (some 0x10) := by decide +kernel

theorem test_datalow_ors_the_low_nibble :
    shown (exec .datalow { rested .hookThenEdge [0xC] with result := some 0x50 }) State.result =
      some (some 0x5C) := by decide +kernel

theorem test_trail3_asserts_sync :
    shown (exec .trail3 { rested .hookThenEdge [] with lines := Config.unwrittenLines }) (fun t => (t.lines.sync,
      t.events.head?)) = some (some true, some (.set .sync true)) := by decide +kernel

/-- Program 3, under either order. -/
theorem test_readword_program_3 :
    shown (exec (.readword 13 0x3C) (rested .hookThenEdge [0x5, 0xC])) (fun t => (t.completion, t.cs, t.addr, t.lines)) =
      some (.byte 0x5C, some 13, some 0x3C, restLines) ∧
    shown (exec (.readword 13 0x3C) (rested .edgeThenHook [0x5, 0xC])) (fun t => (t.completion, t.events.length)) =
      some (.byte 0x5C, 98) := by decide +kernel

/-- The three hooked sub-cycles of Program 3 under `edge_then_hook`. -/
theorem test_readword_edge_then_hook_trace :
    shown (exec (.readword 13 0x3C) (rested .edgeThenHook [0x5, 0xC])) (fun t => (t.events.drop 25).take 38) =
      some [.wrNib 5, .set .clk2 false, .dwell 200, .set .clk1 true, .dwell 200, .dwell 200, .set .clk1 false,
        .set .chipMatrixEnable true, .dwell 200, .dwell 200, .set .clk2 true, .dwell 200, .dwell 200,
        .set .clk2 false, .wrNib 0, .set .chipMatrixEnable false, .dwell 200, .set .clk1 true, .dwell 200, .dwell 200,
        .set .clk1 false, .dwell 200, .dwell 200, .set .clk2 true, .rdNib 5, .dwell 200, .dwell 200,
        .set .clk2 false, .dwell 200, .set .clk1 true, .dwell 200, .dwell 200, .set .clk1 false, .dwell 200,
        .dwell 200, .set .clk2 true, .rdNib 0xC, .dwell 200] := by decide +kernel

/-! ### Witnesses: the hypotheses of each statement are met -/

/-- Everything performed from a state with an empty trace is the trace of the state reached. -/
theorem performed_from_start {s t : State} (h : s.log = []) : Performed s t t.events := by
  simp [Performed, State.events, State.trace, h]

theorem witness_EncodeThenDecode :
    (Instr.setline (.out .chipMatrixEnable) Level.A).WellFormed ∧ (Instr.readline (.inp .dataIn3)).WellFormed ∧
    (Instr.subcyc [(6, [.wrNib 15]), (0, [])]).WellFormed ∧ (Instr.scan 1000).WellFormed := by decide

theorem witness_DecodedIsWellFormed :
    decode { op := 0x30, ports := { cs := 8, addr := 0xFF, d := 4 } } = .ok (.readword 8 0xFF) := by decide

theorem witness_ReservedBytesRejected :
    ∃ r : Request, r.op.toNat ∉ [0x00, 0x01, 0x02, 0x03, 0x04, 0x05, 0x06, 0x10, 0x11, 0x12, 0x13, 0x14, 0x15, 0x16,
      0x18, 0x20, 0x21, 0x22, 0x23, 0x24, 0x25, 0x26, 0x27, 0x28, 0x30, 0x31] := ⟨{ op := 0x17 }, by decide⟩

theorem witness_StepRunsTheNextRequest :
    (State.reset.pc.kind = .idle ∧ State.reset.requests = []) ∧
    ((State.reset.withFetchWord 8 0x28).pc.kind = .idle ∧
      (State.reset.withFetchWord 8 0x28).requests = [wordRequest 0x28] ∧ decode (wordRequest 0x28) = .ok .trail3) ∧
    ((State.reset.withFetchWord 8 0x29).requests = [wordRequest 0x29] ∧
      decode (wordRequest 0x29) = .error (.reserved 0x29)) ∧
    (decode { op := 0x18, ports := { hooks := [(7, [])] } } = .error (.illFormed (.noSuchPhase 7))) ∧
    (enterKind .trail3 State.reset).pc.kind = .cycle .trail3 :=
  ⟨⟨rfl, rfl⟩, ⟨rfl, rfl, by decide⟩, ⟨rfl, by decide⟩, by decide, rfl⟩

theorem witness_OperationsComplete :
    ClockFair (fun n => n) ∧ ∃ s : State, Instr.imsuppress.WellFormed ∧ s.suppressed = none ∧
      ∃ u : State, (Instr.imrestore 4).WellFormed ∧ ∃ p, u.suppressed = some p ∧ p.token = 4 :=
  ⟨fun deadline => ⟨deadline, Nat.le_refl _⟩, State.reset, by decide, rfl,
    { State.reset with suppressed := some ⟨4, []⟩ }, by decide, ⟨4, []⟩, rfl, rfl⟩

theorem witness_LaunchAcquiresOrFails : PortAcquired true ∧ ¬ PortAcquired false := by decide

theorem witness_OnlyTheseAreRefused :
    (∃ s r, exec (.readline (.out .sync)) s = .refused r) ∧ (∃ s r, exec .imsuppress s = .refused r) ∧
    ∃ s r, exec (.imrestore 5) s = .refused r :=
  ⟨⟨State.reset, _, rfl⟩, ⟨{ State.reset with suppressed := some ⟨4, []⟩ }, _, rfl⟩,
    ⟨{ State.reset with suppressed := some ⟨4, []⟩ }, _, rfl⟩⟩

/-- A duration at the least one possible, and a fair clock whose readings the platform can show. -/
theorem witness_WaitnsLastsDPlusDraw :
    (200 ∣ 200 ∧ 200 ≤ 200) ∧ ClockFair (fun n => 1000 + n) ∧ ∀ n, OnTheClock (start .hookThenEdge []) [1000 + n] :=
  ⟨by decide, fun deadline => ⟨deadline, Nat.le_add_left _ _⟩, by
    intro n u h
    rw [List.mem_singleton] at h
    subst h
    exact ⟨Nat.le_add_right _ _, one_dvd _⟩⟩

theorem witness_WaitnsMatchesThePollLoop :
    OnTheClock (start .hookThenEdge []) [1040, 951000] ∧
    pollLoop (start .hookThenEdge []).now 200 [1040, 951000] = some 951000 := by
  unfold OnTheClock
  decide

theorem witness_FairClockEndsTheWait : ClockFair (fun n => n) := fun deadline => ⟨deadline, Nat.le_refl _⟩

theorem witness_CoarseClockRoundsUp :
    0 < 100 ∧ 1000 = 10 * 100 ∧ (∀ u ∈ [1000, 1100, 1200], 100 ∣ u) ∧
    pollLoop 1000 193 [1000, 1100, 1200] = some 1200 := by decide

theorem witness_SetlineWritesOneLine : OutLine.dataOut3 ≠ .clk1 := by decide

/-- With the mask effective and without. -/
theorem witness_ImsuppressCapturesTheSet :
    ((start .hookThenEdge []).suppressed = none ∧ (start .hookThenEdge []).config.maskEffective = true) ∧
    ∃ s : State, s.suppressed = none ∧ s.config.maskEffective = false :=
  ⟨⟨rfl, rfl⟩, State.resetOn { platform .hookThenEdge with maskEffective := false } 0 [3], rfl, rfl⟩

theorem witness_ImrestoreEnablesTheCapturedSet :
    (∃ (s : State) (p : Suppression), s.suppressed = some p ∧ p.captured = [3, 7] ∧ s.config.maskEffective = true) ∧
    ∃ (s : State) (p : Suppression), s.suppressed = some p ∧ s.config.maskEffective = false :=
  ⟨⟨suppress (start .hookThenEdge []), ⟨0, [3, 7]⟩, rfl, rfl, rfl⟩,
    ⟨suppress (State.resetOn { platform .hookThenEdge with maskEffective := false } 0 [3]), ⟨0, [3]⟩, rfl, rfl⟩⟩

theorem witness_TokenMisuseRefused :
    (start .hookThenEdge []).suppressed = none ∧
    ∃ (s : State) (p : Suppression), s.suppressed = some p ∧ 1 ≠ p.token :=
  ⟨rfl, suppress (start .hookThenEdge []), ⟨0, [3, 7]⟩, rfl, by decide⟩

/-- The run to the restore, and a run from there with another suppression in it. -/
theorem witness_SuppressThenRestore :
    ∃ t u v w, exec .imsuppress (start .hookThenEdge []) = .next t ∧ t.completion = .token 0 ∧
      (∀ k, Instr.imrestore k ∉ [Instr.phase0]) ∧ Runs t [.phase0] u ∧ exec (.imrestore 0) u = .next v ∧
      Runs v [.rdnib, .imsuppress] w :=
  ⟨_, _, _, _, rfl, rfl, by simp, ⟨_, rfl, rfl⟩, rfl, _, rfl, _, rfl, rfl⟩

/-- A map with a hook at the first phase and one at the last. -/
theorem witness_SubcycRunsSevenSlots :
    (∀ h ∈ ([(6, [.rdNib .resultLow]), (0, [.wrNib 1, .update (.cs 3)])] : Hooks), h.1 < 7) ∧
    (([(6, [.rdNib .resultLow]), (0, [.wrNib 1, .update (.cs 3)])] : Hooks).map Prod.fst).Nodup := by decide

theorem witness_SubcycRefusesNoMap :
    (∃ h ∈ ([(7, [])] : Hooks), 7 ≤ h.1) ∧ ¬ (([(2, []), (2, [])] : Hooks).map Prod.fst).Nodup := by decide

theorem witness_steps_with_written_registers :
    (rested .hookThenEdge []).addr = some 0x3C ∧ (rested .hookThenEdge []).cs = some 13 ∧
    ({ rested .hookThenEdge [] with result := some 0x50 }).result = some 0x50 := ⟨rfl, rfl, rfl⟩

theorem witness_ReadwordGoesThroughTheKinds :
    ∃ t, exec (.readword 13 0x3C) (rested .hookThenEdge [0x5, 0xC]) = .next t := ⟨_, rfl⟩

/-- The state that `READWORD 13, 0x3C` reaches from a rested start. -/
def reached : State := complete (.byte 0x5C) (readWord 13 0x3C (rested .hookThenEdge [0x5, 0xC]))

theorem reached_by_readword : exec (.readword 13 0x3C) (rested .hookThenEdge [0x5, 0xC]) = .next reached := by
  have h : readResult (readWord 13 0x3C (rested .hookThenEdge [0x5, 0xC])) = 0x5C := by decide +kernel
  show Host.Outcome.next (complete (.byte (readResult _)) _) = _
  rw [h]; rfl

/-- The first dwell of the transaction and the last. -/
theorem witness_ReadwordClockWaveform :
    (rested .hookThenEdge [0x5, 0xC]).lines.clk1 = some Level.N ∧
    exec (.readword 13 0x3C) (rested .hookThenEdge [0x5, 0xC]) = .next reached ∧
    Performed (rested .hookThenEdge [0x5, 0xC]) reached (reached.events.take 3 ++ .dwell 200 :: reached.events.drop 4) ∧
    Performed (rested .hookThenEdge [0x5, 0xC]) reached (reached.events.take 97 ++ [.dwell 200]) :=
  ⟨rfl, reached_by_readword, by unfold Performed; decide +kernel, by unfold Performed; decide +kernel⟩

theorem witness_ClocksNeverOverlap :
    (start .hookThenEdge []).lines.clk1 ≠ some Level.A ∧
    (∃ t, exec .init (start .hookThenEdge []) = .next t ∧ Performed (start .hookThenEdge []) t t.events) ∧
    (∃ t, exec (.readword 13 0x3C) (start .hookThenEdge []) = .next t ∧
      Performed (start .hookThenEdge []) t t.events) ∧
    ∃ t, exec (.scan 13) (start .hookThenEdge []) = .next t ∧ Performed (start .hookThenEdge []) t t.events :=
  ⟨nofun, ⟨_, rfl, performed_from_start rfl⟩, ⟨_, rfl, performed_from_start rfl⟩, ⟨_, rfl, performed_from_start rfl⟩⟩

/-- Both samples of the transaction. -/
theorem witness_EnableNegatedAtTheSamples :
    exec (.readword 13 0x3C) (rested .hookThenEdge [0x5, 0xC]) = .next reached ∧
    Performed (rested .hookThenEdge [0x5, 0xC]) reached (reached.events.take 48 ++ .rdNib 0x5 :: reached.events.drop 49) ∧
    Performed (rested .hookThenEdge [0x5, 0xC]) reached
      (reached.events.take 60 ++ .rdNib 0xC :: reached.events.drop 61) :=
  ⟨reached_by_readword, by unfold Performed; decide +kernel, by unfold Performed; decide +kernel⟩

theorem witness_ScanEventCounts :
    ∃ t es, exec (.scan 8) (start .hookThenEdge []) = .next t ∧ Performed (start .hookThenEdge []) t es :=
  ⟨_, _, rfl, performed_from_start rfl⟩

/-- Lines that show one nibble `n` times answer it `n` times. -/
theorem answers_of_a_stub (order : HookOrder) (v : Nibble) (n k : Nat) (h : k < n) :
    answerAt (start order (List.replicate n v)) k = v := by
  simp [answerAt, start, h]

/-- A scan of a target whose bytes are all `0xAA`, the stub of S6 seen as a memory. -/
theorem witness_ScanOfAnIdealTarget :
    IdealTarget (fun _ _ => 0xAA) [.scan 13] (start .hookThenEdge (List.replicate 512 0xA)) := by
  refine ⟨?_, fun _ _ => trivial⟩
  intro k cs a h
  have below : k < 256 := by
    have := (List.getElem?_eq_some_iff.mp h).1
    rwa [transactions, List.length_map, List.length_range] at this
  rw [answers_of_a_stub .hookThenEdge 0xA 512 (2 * k) (by omega),
    answers_of_a_stub .hookThenEdge 0xA 512 (2 * k + 1) (by omega)]
  have halves : (0xAA : Byte).extractLsb' 4 4 = 0xA ∧ (0xAA : Byte).extractLsb' 0 4 = 0xA := by decide
  exact ⟨halves.1.symm, halves.2.symm⟩

/-- A target that shows the low and the high nibble of its address exchanged, so that two samples differ. -/
def swapped (_ : Nat) (a : Byte) : Byte := a.extractLsb' 0 4 ++ a.extractLsb' 4 4

/-- A transaction of that target: the byte at `0x3C` is `0xC3`. -/
theorem ideal_readword (later : List Instr) (s : State) (h : answerAt s 0 = 0xC ∧ answerAt s 1 = 0x3)
    (rest : ∀ t, exec (.readword 13 0x3C) s = .next t → IdealTarget swapped later t) :
    IdealTarget swapped (.readword 13 0x3C :: later) s := by
  refine ⟨?_, rest⟩
  intro k cs a found
  obtain rfl : k = 0 := by
    have := (List.getElem?_eq_some_iff.mp found).1
    simpa [transactions] using this
  obtain ⟨rfl, rfl⟩ : 13 = cs ∧ 0x3C = a := by simpa [transactions] using found
  exact ⟨h.1.trans (by decide), h.2.trans (by decide)⟩

theorem witness_ReadwordOfAnIdealTarget :
    IdealTarget swapped [.readword 13 0x3C] (rested .hookThenEdge [0xC, 0x3]) :=
  ideal_readword _ _ ⟨rfl, rfl⟩ fun _ _ => trivial

/-- Two transactions with a phase of its own between them. -/
theorem witness_RunAgainstAnIdealTarget :
    IdealTarget swapped ([.readword 13 0x3C, .phase1] ++ .readword 13 0x3C :: [])
      (rested .hookThenEdge [0xC, 0x3, 0xC, 0x3]) ∧
    ∃ t u, Runs (rested .hookThenEdge [0xC, 0x3, 0xC, 0x3]) [.readword 13 0x3C, .phase1] t ∧
      exec (.readword 13 0x3C) t = .next u := by
  refine ⟨ideal_readword _ _ ⟨rfl, rfl⟩ ?_, ?_⟩
  · intro t run
    obtain rfl := Host.Outcome.next.inj run
    refine ⟨fun k cs a found => by simp [transactions] at found, ?_⟩
    intro u run
    obtain rfl := Host.Outcome.next.inj run
    exact ideal_readword _ _ (by decide +kernel) fun _ _ => trivial
  · exact ⟨_, _, ⟨_, rfl, _, rfl, rfl⟩, rfl⟩

theorem witness_ScanOfAStubTarget : StubTarget 0xA 512 (start .hookThenEdge (List.replicate 512 0xA)) := fun k h =>
  answers_of_a_stub .hookThenEdge 0xA 512 k h

/-- From states with the registers written, and from states with them unwritten (log 2). -/
theorem witness_AnswersDecideOnlyTheData :
    SameButInputs (rested .hookThenEdge [0x5, 0xC]) (rested .hookThenEdge [0xA]) ∧
    SameButInputs (start .hookThenEdge [0x5, 0xC]) (start .hookThenEdge [0xA]) :=
  ⟨⟨rfl, rfl, rfl, rfl⟩, ⟨rfl, rfl, rfl, rfl⟩⟩

theorem witness_TraceOnlyGrows : ∃ t, exec (.scan 5) (start .edgeThenHook []) = .next t := ⟨_, rfl⟩

theorem witness_OnlyTheMaskTouchesTheMask :
    ∃ t, Instr.datalow ≠ .imsuppress ∧ (∀ k, Instr.datalow ≠ .imrestore k) ∧
      exec .datalow (start .hookThenEdge [0x5]) = .next t :=
  ⟨_, nofun, fun _ => nofun, rfl⟩

/-- One state for the three invariants and its step. -/
theorem witness_StepKeeps :
    Timely (State.reset.withFetchWord 8 0x20) ∧ LinesTold (State.reset.withFetchWord 8 0x20) ∧
    Settled (State.reset.withFetchWord 8 0x20) ∧ TokenIssued (State.reset.withFetchWord 8 0x20) ∧
    ∃ t, step (State.reset.withFetchWord 8 0x20) = .next t :=
  ⟨trivial, rfl, ⟨rfl, rfl, rfl⟩, nofun, _, rfl⟩

end Sys2Proof.Tests
end

section
/-! The four operations of DigitalPort (41_digital_port.md R81 to R84): each is one port event, so what an event leaves
as it was is said once and each operation adds what it does to the lines and what it returns. -/

namespace Sys2Proof.Machine

open Sys2Proof.Safety

/-! ### One port event and its completion -/

/-- The frame of an operation that is one port event: but for the lines and the trace, it changes only the clock, by one
gap (40_timer.md R76), the draws, with `k` samples among them, and what completion sets: Idle, with `c` on the result
port (30_encoding.md R63). -/
def OneEventFrame (k : Nat) (c : Completion) (s t : State) : Prop :=
  SameRegisters s t ∧ SameDriver s t ∧ SameMask s t ∧ SamePlatform s t ∧
  t.pc.phase = s.pc.phase ∧ t.now = s.now + delayAt s 0 ∧ Drew k 1 s t ∧ DoneWith c t

/-- A port event that writes the lines, and then completion. -/
theorem oneEventFrame_complete_emit (c : Completion) (e : Event) (ls : OutLines (Option Level)) (s : State) :
    OneEventFrame 0 c s (complete c (emit e { s with lines := ls })) :=
  ⟨⟨rfl, rfl, rfl⟩, ⟨rfl, rfl⟩, ⟨rfl, rfl, rfl⟩, ⟨rfl, rfl⟩, rfl, rfl,
    ⟨rfl, rfl, List.drop_one.symm, rfl⟩, rfl, rfl, rfl⟩

/-- A port event that uses up one sample, and then completion. -/
theorem oneEventFrame_complete_takeAnswer_emit (c : Completion) (e : Event) (s : State) :
    OneEventFrame 1 c s (complete c (takeAnswer (emit e s))) :=
  ⟨⟨rfl, rfl, rfl⟩, ⟨rfl, rfl⟩, ⟨rfl, rfl, rfl⟩, ⟨rfl, rfl⟩, rfl, rfl,
    ⟨List.drop_one.symm, rfl, List.drop_one.symm, rfl⟩, rfl, rfl, rfl⟩

/-! ### What each operation answers -/

theorem exec_setline_out (l : OutLine) (v : Level) (s : State) :
    exec (.setline (.out l) v) s = .next (complete .nothing (setLine l v s)) := rfl

theorem exec_setline_inp (l : InLine) (v : Level) (s : State) :
    exec (.setline (.inp l) v) s = .refused (.illFormed (.notAnOutputLine l)) := rfl

theorem exec_readline_inp (l : InLine) (s : State) :
    exec (.readline (.inp l)) s = .next (complete (.level (inputBit (answerAt s 0) l)) (readLine l s)) := rfl

theorem exec_readline_out (l : OutLine) (s : State) :
    exec (.readline (.out l)) s = .refused (.illFormed (.notAnInputLine l)) := rfl

theorem exec_wrnib (v : Nat) (s : State) :
    exec (.wrnib v) s = .next (complete .nothing (writeNibble (writtenNibble v) s)) := rfl

theorem exec_rdnib (s : State) :
    exec .rdnib s = .next (complete (.nibble (answerAt s 0)) (readNibble s)) := rfl

/-! ### The environment's answers and the written nibble -/

/-- A nibble put in front of the coming answers is what the next sample shows (20_memory.md R40). -/
@[simp] theorem answerAt_zero_of_answers_cons (v : Nibble) (vs : List Nibble) (s : State) :
    answerAt { s with answers := v :: vs } 0 = v := rfl

/-- A nibble with four equal bits shows that level on every input line. -/
@[simp] theorem inputBit_fill (b : Level) (l : InLine) : inputBit (BitVec.fill 4 b) l = b := by
  cases l <;> simp [inputBit]

/-- Bits above 3 are dropped (41_digital_port.md R83). -/
theorem writtenNibble_eq_ofNat_mod (v : Nat) : writtenNibble v = BitVec.ofNat 4 (v % 16) :=
  BitVec.eq_of_toNat_eq (by simp [writtenNibble])

/-- Bit `i` of a number is bit `i` of the nibble written, for the four bits there are (41_digital_port.md R83). -/
theorem getLsbD_writtenNibble (v : Nat) {i : Nat} (h : i < 4) : (writtenNibble v).getLsbD i = v.testBit i := by
  rw [writtenNibble, BitVec.getLsbD_ofNat, decide_eq_true h, Bool.true_and]

/-- Bit `i` of a number on `DataOuti` (20_memory.md R35; 41_digital_port.md R83). -/
theorem outNibble_writtenNibble (ls : OutLines (Option Level)) (v : Nat) :
    outNibble ls (writtenNibble v) =
      { ls with
        dataOut0 := some (v.testBit 0), dataOut1 := some (v.testBit 1),
        dataOut2 := some (v.testBit 2), dataOut3 := some (v.testBit 3) } := by
  simp only [outNibble, getLsbD_writtenNibble, Nat.reduceLT]

/-! ### The obligations -/

/-- Settles O19: the line written reads back by `outGet_outSet`, and the rest is the frame of one event. -/
theorem setlineWritesOneLine : Obligations.SetlineWritesOneLine := by
  refine ⟨fun l v s => ⟨rfl, _, exec_setline_out l v s, ?_⟩, exec_setline_inp⟩
  have written : outGet (outSet s.lines l (some v)) l = some v := by simp
  have others : ∀ m, m ≠ l → outGet (outSet s.lines l (some v)) m = outGet s.lines m := by
    intro m ne
    simp [ne]
  exact ⟨setLine_events l v s, written, others, oneEventFrame_complete_emit .nothing _ _ s⟩

/-- Settles O20: an environment that shows `b` on all four lines shows it on this one, so either level is possible. -/
theorem readlineReturnsTheShownLevel : Obligations.ReadlineReturnsTheShownLevel := by
  refine ⟨fun l s => ⟨rfl, ⟨_, exec_readline_inp l s, ?_⟩, fun b => ?_⟩, exec_readline_out⟩
  · exact ⟨readLine_events l s, (readLine_frame l s).2.1, oneEventFrame_complete_takeAnswer_emit _ _ s⟩
  · have shown : inputBit (answerAt { s with answers := BitVec.fill 4 b :: s.answers } 0) l = b := by simp
    refine ⟨BitVec.fill 4 b, _, exec_readline_inp l _, ?_, congrArg Completion.level shown⟩
    have event := readLine_events l { s with answers := BitVec.fill 4 b :: s.answers }
    rwa [shown] at event

/-- Settles O21: the nibble written carries the low four bits of the number, each on its own line. -/
theorem wrnibDrivesTheFourLines : Obligations.WrnibDrivesTheFourLines := by
  refine fun v s => ⟨rfl, _, exec_wrnib v s, ?_, ?_, oneEventFrame_complete_emit .nothing _ _ s⟩
  · rw [← writtenNibble_eq_ofNat_mod]
    exact writeNibble_events (writtenNibble v) s
  · exact outNibble_writtenNibble s.lines v

/-- Settles O22: the nibble returned is the environment's next answer, which may be any. -/
theorem rdnibReturnsTheShownNibble : Obligations.RdnibReturnsTheShownNibble := by
  refine fun s => ⟨rfl, ⟨_, exec_rdnib s, ?_⟩, fun v => ⟨_, exec_rdnib _, ?_, rfl⟩⟩
  · exact ⟨readNibble_events s, (readNibble_frame s).2.1, oneEventFrame_complete_takeAnswer_emit _ _ s⟩
  · exact readNibble_events { s with answers := v :: s.answers }

end Sys2Proof.Machine
end

section
/-! The request coder (30_encoding.md R51, R58, R59, R63): decoding reads an operation back from its encoding, and an
accepted request is the encoding of its operation but for the ports that the operation does not use. -/

namespace Sys2Proof

open Laws.EncodedByte (family member)

/-! ### The byte of an operation -/

/-- The byte of each operation: its family in the high nibble, its member in the low one (30_encoding.md R51). -/
theorem opcode_toNat (i : Instr) : (opcode i).toNat = 16 * family i + member i := by
  cases i <;> rfl

theorem member_lt (i : Instr) : member i < 16 := by
  cases i <;> simp [member]

/-- The family and the member are read back from the encoding (30_encoding.md R51). -/
theorem encodedByte (i : Instr) : Laws.EncodedByte.Statement i := by
  have byte := opcode_toNat i
  have low := member_lt i
  constructor
  · rw [familyOf, encode, byte]; omega
  · rw [memberOf, encode, byte]; omega

/-- A byte is its family and its member (30_encoding.md R51). -/
theorem toNat_eq_family_member (op : Byte) : op.toNat = 16 * familyOf op + memberOf op :=
  (Nat.div_add_mod op.toNat 16).symm

/-! ### The decoder on an encoded operation -/

/-- The byte and the ports of an operation name that operation, well-formed or not. -/
theorem decodeOperation_encode (i : Instr) : decodeOperation (encode i) = some i := by
  obtain ⟨f, m⟩ := encodedByte i
  rw [decodeOperation, f, m]
  cases i <;> rfl

/-- A request is accepted exactly when it names an operation without defect. -/
theorem decode_eq_ok_iff {r : Request} {i : Instr} :
    decode r = .ok i ↔ decodeOperation r = some i ∧ i.WellFormed := by
  unfold decode
  split
  case h_1 unnamed => simp [unnamed]
  case h_2 j named =>
    rw [named, Option.some.injEq]
    split
    case h_1 sound =>
      rw [Except.ok.injEq]
      exact ⟨fun e => ⟨e, e ▸ sound⟩, And.left⟩
    case h_2 d defect =>
      refine ⟨nofun, ?_⟩
      rintro ⟨rfl, sound⟩
      cases defect.symm.trans sound

/-! ### The byte of a decoded operation -/

theorem decodeLeaf_eq_some {p : Ports} {m : Nat} {i : Instr} (h : decodeLeaf p m = some i) :
    family i = 0 ∧ member i = m := by
  unfold decodeLeaf at h
  split at h <;> cases h <;> exact ⟨rfl, rfl⟩

theorem decodePhase_eq_some {p : Ports} {m : Nat} {i : Instr} (h : decodePhase p m = some i) :
    family i = 1 ∧ member i = m := by
  unfold decodePhase at h
  split at h <;> cases h <;> exact ⟨rfl, rfl⟩

theorem stepOfKind_eq_some {m : Nat} {i : Instr} (h : (kindOfCode m).map stepOfKind = some i) :
    family i = 2 ∧ member i = m := by
  unfold kindOfCode at h
  split at h <;> cases h <;> exact ⟨rfl, rfl⟩

theorem decodeComposite_eq_some {p : Ports} {m : Nat} {i : Instr} (h : decodeComposite p m = some i) :
    family i = 3 ∧ member i = m := by
  unfold decodeComposite at h
  split at h <;> cases h <;> exact ⟨rfl, rfl⟩

/-- The operation a request names has the family and the member of the request's byte. -/
theorem decodeOperation_family_member {r : Request} {i : Instr} (h : decodeOperation r = some i) :
    family i = familyOf r.op ∧ member i = memberOf r.op := by
  unfold decodeOperation at h
  split at h
  case h_1 f => rw [f]; exact decodeLeaf_eq_some h
  case h_2 f => rw [f]; exact decodePhase_eq_some h
  case h_3 f => rw [f]; exact stepOfKind_eq_some h
  case h_4 f => rw [f]; exact decodeComposite_eq_some h
  case h_5 => cases h

/-- The operation a request names has the request's own byte. -/
theorem opcode_of_decodeOperation {r : Request} {i : Instr} (h : decodeOperation r = some i) : opcode i = r.op := by
  obtain ⟨f, m⟩ := decodeOperation_family_member h
  apply BitVec.eq_of_toNat_eq
  rw [opcode_toNat, toNat_eq_family_member, f, m]

/-- The bytes of the 26 operations (30_encoding.md R58). -/
theorem opcode_toNat_mem (i : Instr) :
    (opcode i).toNat ∈ [0x00, 0x01, 0x02, 0x03, 0x04, 0x05, 0x06, 0x10, 0x11, 0x12, 0x13, 0x14, 0x15, 0x16, 0x18,
      0x20, 0x21, 0x22, 0x23, 0x24, 0x25, 0x26, 0x27, 0x28, 0x30, 0x31] := by
  cases i <;> simp [opcode]

/-! ### The obligations -/

/-- Settles O1: the encoding names its operation, and a well-formed operation is accepted. -/
theorem encodeThenDecode : Obligations.EncodeThenDecode :=
  fun i wf => decode_eq_ok_iff.mpr ⟨decodeOperation_encode i, wf⟩

/-- Settles O2: the byte of the request with the operation's own ports is the operation's encoding. -/
theorem decodedIsWellFormed : Obligations.DecodedIsWellFormed := by
  intro r i accepted
  obtain ⟨named, wf⟩ := decode_eq_ok_iff.mp accepted
  have byte := opcode_of_decodeOperation named
  refine ⟨wf, byte, ?_⟩
  rw [← byte]
  exact encodeThenDecode i wf

/-- Settles O3: a byte that named an operation would be one of the 26. -/
theorem reservedBytesRejected : Obligations.ReservedBytesRejected := by
  intro r reserved
  have none_named : decodeOperation r = none := by
    by_contra named
    obtain ⟨i, hi⟩ := Option.ne_none_iff_exists'.mp named
    exact reserved (opcode_of_decodeOperation hi ▸ opcode_toNat_mem i)
  rw [decode, none_named]

/-- Settles O4: each byte stands with the ports of its operation, so it is that operation's encoding (O1). -/
theorem tableBytesDecode : Obligations.TableBytesDecode :=
  ⟨encodeThenDecode (.waitns 200) rfl, encodeThenDecode (.setline (.out .sync) Level.A) rfl,
    encodeThenDecode (.imrestore 3) rfl, encodeThenDecode .phase6 rfl, encodeThenDecode (.subcyc []) rfl,
    encodeThenDecode .datahigh rfl, encodeThenDecode (.readword 13 0x3C) rfl, encodeThenDecode (.scan 5) rfl⟩

end Sys2Proof
end

section
/-! What an operation answers, said once: refused for an operand the spec does not define, one of the four answers of
the interrupt mask, or completed with its body and its result (30_encoding.md R59, R63; 41_digital_port.md R86, R87). -/

namespace Sys2Proof.Machine

open Sys2Proof.Safety

/-! ### The answer of an operation -/

/-- The operation is neither of the two of the interrupt mask. -/
abbrev LeavesMask (i : Instr) : Prop := i ≠ .imsuppress ∧ ∀ tok, i ≠ .imrestore tok

/-- What an operation does before it completes; the identity for the two of the mask and for an operand the spec does
not define, which `Answered` tells apart. -/
def bodyOf (i : Instr) (s : State) : State :=
  match i with
  | .waitns d => wait d s
  | .setline (.out l) v => setLine l v s
  | .readline (.inp l) => readLine l s
  | .wrnib v => writeNibble (writtenNibble v) s
  | .rdnib => readNibble s
  | .setline (.inp _) _ | .readline (.out _) | .imsuppress | .imrestore _ => s
  | .phase0 => runPhase 0 s
  | .phase1 => runPhase 1 s
  | .phase2 => runPhase 2 s
  | .phase3 => runPhase 3 s
  | .phase4 => runPhase 4 s
  | .phase5 => runPhase 5 s
  | .phase6 => runPhase 6 s
  | .subcyc hooks => runSubCycle hooks s
  | .init => initStep s
  | .addrlow => addrLowStep s
  | .addrhigh => addrHighStep s
  | .chipsel => chipSelectStep s
  | .datahigh => dataHighStep s
  | .datalow => dataLowStep s
  | .trail1 => trail1Step s
  | .trail2 => trail2Step s
  | .trail3 => trail3Step s
  | .readword cs a => readWord cs a s
  | .scan cs => flushBuffer (scanLoop cs s)

/-- What an operation that leaves the mask alone puts on the result port (30_encoding.md R58, R63). -/
def resultOf (i : Instr) (s : State) : Completion :=
  match i with
  | .readline (.inp l) => .level (inputBit (answerAt s 0) l)
  | .rdnib => .nibble (answerAt s 0)
  | .readword cs a => .byte (readResult (readWord cs a s))
  | .scan cs => .bytes (scanLoop cs s).buffer
  | .readline (.out _) | .waitns _ | .setline _ _ | .wrnib _ | .imsuppress | .imrestore _ => .nothing
  | .phase0 | .phase1 | .phase2 | .phase3 | .phase4 | .phase5 | .phase6 | .subcyc _ => .nothing
  | .init | .addrlow | .addrhigh | .chipsel | .datahigh | .datalow | .trail1 | .trail2 | .trail3 => .nothing

/-- The answers an operation can give from `s`, each under its condition. -/
inductive Answered (s : State) : Instr → Answer → Prop
  | illFormed {i : Instr} {d : Defect} (defect : i.defect = some d) : Answered s i (.refused (.illFormed d))
  | suppressed (free : s.suppressed = none) :
      Answered s .imsuppress (.next (complete (.token s.tokensIssued) (suppress s)))
  | nested {p : Suppression} (outstanding : s.suppressed = some p) : Answered s .imsuppress (.refused .nestedSuppress)
  | restored {p : Suppression} (outstanding : s.suppressed = some p) :
      Answered s (.imrestore p.token) (.next (complete .nothing (restore p.captured s)))
  | misused {tok : Nat} (other : ∀ p, s.suppressed = some p → p.token ≠ tok) :
      Answered s (.imrestore tok) (.refused (.tokenMisuse tok))
  | ran {i : Instr} (sound : i.WellFormed) (leaves : LeavesMask i) :
      Answered s i (.next (complete (resultOf i s) (bodyOf i s)))

theorem execImsuppress_answered (s : State) : Answered s .imsuppress (execImsuppress s) := by
  unfold execImsuppress
  split
  case h_1 free => exact .suppressed free
  case h_2 outstanding => exact .nested outstanding

theorem execImrestore_answered (tok : Nat) (s : State) : Answered s (.imrestore tok) (execImrestore tok s) := by
  unfold execImrestore
  split
  case h_1 free => exact .misused (by simp [free])
  case h_2 p outstanding =>
    split
    case isTrue same => exact same ▸ .restored outstanding
    case isFalse other => exact .misused (by simpa [outstanding] using other)

theorem execSubcyc_answered (hooks : Hooks) (s : State) : Answered s (.subcyc hooks) (execSubcyc hooks s) := by
  unfold execSubcyc
  split
  case h_1 sound => exact .ran sound ⟨nofun, nofun⟩
  case h_2 d defect => exact .illFormed defect

/-- Every operation answers one of these. -/
theorem exec_answered (i : Instr) (s : State) : Answered s i (exec i s) := by
  cases i with
  | imsuppress => exact execImsuppress_answered s
  | imrestore tok => exact execImrestore_answered tok s
  | subcyc hooks => exact execSubcyc_answered hooks s
  | setline name v =>
    cases name with
    | out l => exact .ran rfl ⟨nofun, nofun⟩
    | inp l => exact .illFormed rfl
  | readline name =>
    cases name with
    | inp l => exact .ran rfl ⟨nofun, nofun⟩
    | out l => exact .illFormed rfl
  | _ => exact .ran rfl ⟨nofun, nofun⟩

/-- What an operation answered, given its answer. -/
theorem answered_of_exec {i : Instr} {s : State} {a : Answer} (run : exec i s = a) : Answered s i a :=
  run ▸ exec_answered i s

/-- A well-formed operation that leaves the mask alone completes with its body and its result. -/
theorem exec_eq_next {i : Instr} (sound : i.WellFormed) (leaves : LeavesMask i) (s : State) :
    exec i s = .next (complete (resultOf i s) (bodyOf i s)) := by
  obtain ⟨notSuppress, notRestore⟩ := leaves
  generalize run : exec i s = a
  cases answered_of_exec run with
  | illFormed defect => cases sound.symm.trans defect
  | suppressed => exact absurd rfl notSuppress
  | nested => exact absurd rfl notSuppress
  | restored => exact absurd rfl (notRestore _)
  | misused => exact absurd rfl (notRestore _)
  | ran => rfl

/-- An operation with a defect is refused under the defect's name (30_encoding.md R59). -/
theorem exec_eq_illFormed {i : Instr} {d : Defect} (defect : i.defect = some d) (s : State) :
    exec i s = .refused (.illFormed d) := by
  generalize run : exec i s = a
  cases answered_of_exec run with
  | illFormed other => cases defect.symm.trans other; rfl
  | suppressed => cases defect
  | nested => cases defect
  | restored => cases defect
  | misused => cases defect
  | ran sound => cases defect.symm.trans sound

theorem exec_imsuppress_eq_next {s : State} (free : s.suppressed = none) :
    exec .imsuppress s = .next (complete (.token s.tokensIssued) (suppress s)) := by
  generalize run : exec .imsuppress s = a
  cases answered_of_exec run with
  | illFormed defect => cases defect
  | suppressed => rfl
  | nested outstanding => cases free.symm.trans outstanding
  | ran _ leaves => exact absurd rfl leaves.1

theorem exec_imrestore_eq_next {s : State} {p : Suppression} (outstanding : s.suppressed = some p) :
    exec (.imrestore p.token) s = .next (complete .nothing (restore p.captured s)) := by
  simp [exec, execImrestore, outstanding, finish_eq]

theorem exec_imrestore_eq_refused {s : State} {tok : Nat} (other : ∀ p, s.suppressed = some p → p.token ≠ tok) :
    exec (.imrestore tok) s = .refused (.tokenMisuse tok) := by
  generalize run : exec (.imrestore tok) s = a
  cases answered_of_exec run with
  | illFormed defect => cases defect
  | restored outstanding => exact absurd rfl (other _ outstanding)
  | misused => rfl
  | ran _ leaves => exact absurd rfl (leaves.2 tok)

/-! ### What every completed operation leaves -/

/-- An operation that completed leaves the block Idle, at no stage (30_encoding.md R63). -/
theorem exec_idle {i : Instr} {s t : State} (run : exec i s = .next t) : t.pc.kind = .idle ∧ t.pc.stage = none := by
  cases answered_of_exec run <;> exact ⟨rfl, rfl⟩

/-! ### Obligations on the step, the refusals and the launch -/

/-- Settles O6: no answer is a fault, and a step answers what its operation does. -/
theorem nothingFaults : Obligations.NothingFaults := by
  have exec_ne (i : Instr) (s : State) (f : Fault) : exec i s ≠ .fault f := fun run => nomatch answered_of_exec run
  refine ⟨exec_ne, fun s f run => ?_⟩
  unfold step at run
  split at run
  · cases run
  · split at run
    · cases run
    · split at run
      · cases run
      · exact exec_ne _ _ _ run

/-- Settles O8: the three answers that refuse are the three named. -/
theorem onlyTheseAreRefused : Obligations.OnlyTheseAreRefused := by
  intro i s r run
  cases answered_of_exec run with
  | illFormed defect => exact .inl ⟨_, defect, rfl⟩
  | nested outstanding => exact .inr (.inl ⟨rfl, by simp [outstanding], rfl⟩)
  | misused other => exact .inr (.inr ⟨_, rfl, other, rfl⟩)

/-- Settles O30: an operand that is no partial map from 0..6 has a defect. -/
theorem subcycRefusesNoMap : Obligations.SubcycRefusesNoMap := by
  intro hooks s noMap
  have defective : hooksDefect hooks ≠ none := by
    intro sound
    obtain ⟨below, once⟩ := (hooksDefect_none_iff hooks).mp sound
    obtain ⟨h, mem, above⟩ | again := noMap
    · exact absurd (below h mem) (by omega)
    · exact again once
  obtain ⟨d, defect⟩ := Option.ne_none_iff_exists'.mp defective
  exact ⟨d, exec_eq_illFormed (i := .subcyc hooks) defect s⟩

/-- Settles O5: the branches of the step, one by one. -/
theorem stepRunsTheNextRequest : Obligations.StepRunsTheNextRequest := by
  refine fun s => ⟨fun idle empty => ?_, fun r later i idle next decoded => ?_,
    fun r later b idle next rejected => ?_, fun r later d idle next rejected => ?_, fun k busy => ?_⟩
  · simp only [step, idle, empty]
  · simp only [step, idle, next, decoded]
  · simp only [step, idle, next, rejected, refusalOf]
  · simp only [step, idle, next, rejected, refusalOf]
  · simp only [step, busy]

/-- Settles O9: the fields of the reset state. -/
theorem resetLeavesUnwritten : Obligations.ResetLeavesUnwritten :=
  ⟨⟨rfl, rfl, rfl, rfl⟩, rfl, rfl, rfl, rfl, rfl⟩

/-- Settles O10: no request stands at reset, and an Idle block with no request does nothing (O5). -/
theorem resetWaitsForARequest : Obligations.ResetWaitsForARequest :=
  (stepRunsTheNextRequest State.reset).1 rfl rfl

/-- Settles O11: by the two results of the acquisition. -/
theorem launchAcquiresOrFails : Obligations.LaunchAcquiresOrFails := by
  intro acquired
  cases acquired with
  | false => simp [launch]
  | true => simp [launch]

/-- Settles O12: the free values stand in the platform as a successor and as a remainder. -/
theorem parametersInBounds : Obligations.ParametersInBounds :=
  ⟨⟨Nat.succ_pos _, Nat.mod_lt _ (by decide), Nat.succ_ne_zero _⟩, rfl, _, rfl, Nat.succ_ne_zero _⟩

end Sys2Proof.Machine
end

section
/-! What every operation keeps (20_memory.md R43; 10_state.md R11; 40_timer.md R71), and the interrupt mask
(41_digital_port.md R86 to R88). -/

namespace Sys2Proof.Machine

open Sys2Proof.Safety

/-! ### What the body of an operation keeps -/

/-- What the updates inside an operation keep, the body of every operation keeps. -/
theorem Kept.bodyOf {P : State → Prop} (k : Kept P) (i : Instr) (s : State) (h : P s) : P (bodyOf i s) := by
  cases i with
  | waitns d => exact k.wait d s h
  | setline name v =>
    cases name with
    | out l => exact k.setLine l v s h
    | inp l => exact h
  | readline name =>
    cases name with
    | inp l => exact k.readLine l s h
    | out l => exact h
  | wrnib v => exact k.writeNibble _ s h
  | rdnib => exact k.readNibble s h
  | imsuppress => exact h
  | imrestore tok => exact h
  | phase0 => exact k.runPhase 0 s h
  | phase1 => exact k.runPhase 1 s h
  | phase2 => exact k.runPhase 2 s h
  | phase3 => exact k.runPhase 3 s h
  | phase4 => exact k.runPhase 4 s h
  | phase5 => exact k.runPhase 5 s h
  | phase6 => exact k.runPhase 6 s h
  | subcyc hooks => exact k.runSubCycle hooks s h
  | init => exact k.initStep s h
  | addrlow => exact k.addrLowStep s h
  | addrhigh => exact k.addrHighStep s h
  | chipsel => exact k.chipSelectStep s h
  | datahigh => exact k.dataHighStep s h
  | datalow => exact k.dataLowStep s h
  | trail1 => exact k.trail1Step s h
  | trail2 => exact k.trail2Step s h
  | trail3 => exact k.trail3Step s h
  | readword cs a => exact k.readWord cs a s h
  | scan cs => exact k.driver (Machine.scanLoop cs s).counter [] _ (k.scanLoop cs s h)

/-! ### The frame of the mask and of the platform -/

/-- The updates inside an operation leave the mask as it was. -/
theorem kept_sameMask (s : State) : Kept (SameMask s) where
  setLine _ _ _ h := h
  writeNibble _ _ h := h
  readNibble _ h := h
  readLine _ _ h := h
  wait _ _ h := h
  advance _ _ h := h
  registers _ _ _ _ h := h
  position _ _ h := h
  driver _ _ _ h := h

/-- The updates inside an operation leave the parameters and the later requests as they were. -/
theorem kept_samePlatform (s : State) : Kept (SamePlatform s) where
  setLine _ _ _ h := h
  writeNibble _ _ h := h
  readNibble _ h := h
  readLine _ _ h := h
  wait _ _ h := h
  advance _ _ h := h
  registers _ _ _ _ h := h
  position _ _ h := h
  driver _ _ _ h := h

theorem exec_samePlatform {i : Instr} {s t : State} (run : exec i s = .next t) : SamePlatform s t :=
  (kept_samePlatform s).exec (fun _ _ _ _ h => h) (fun _ _ h => h) run ⟨rfl, rfl⟩

/-- Settles O53: the body of an operation leaves the mask as it was, and so does its completion. -/
theorem onlyTheMaskTouchesTheMask : Obligations.OnlyTheMaskTouchesTheMask := by
  intro i s t notSuppress notRestore run
  cases answered_of_exec run with
  | suppressed => exact absurd rfl notSuppress
  | restored => exact absurd rfl (notRestore _)
  | ran => exact (kept_sameMask s).bodyOf i s ⟨rfl, rfl, rfl⟩

/-! ### The trace and the clock -/

/-- The trace of `t` extends that of `s`, and the clock of `t` is not behind. -/
def Grew (s t : State) : Prop := (∃ new, t.trace = s.trace ++ new) ∧ s.now ≤ t.now

/-- One more event and a later clock. -/
theorem Grew.snoc {s t u : State} {st : Stamp} (h : Grew s t) (log : u.log = st :: t.log) (later : t.now ≤ u.now) :
    Grew s u := by
  obtain ⟨⟨new, grew⟩, ordered⟩ := h
  refine ⟨⟨new ++ [st], ?_⟩, ordered.trans later⟩
  rw [State.trace] at grew
  rw [State.trace, log, List.reverse_cons, grew, List.append_assoc]

theorem kept_grew (s : State) : Kept (Grew s) where
  setLine l v t h := h.snoc (setLine_log l v t) (by simp)
  writeNibble n t h := h.snoc (writeNibble_log n t) (by simp)
  readNibble t h := h.snoc (readNibble_log t) (by simp)
  readLine l t h := h.snoc (readLine_log l t) (by simp)
  wait d t h := h.snoc (wait_log d t) (by have := wait_now_ge d t; omega)
  advance d t h := ⟨h.1, h.2.trans (by rw [advance_now]; omega)⟩
  registers _ _ _ _ h := h
  position _ _ h := h
  driver _ _ _ h := h

/-- Settles O52: every update inside an operation only adds to the trace and to the clock. -/
theorem traceOnlyGrows : Obligations.TraceOnlyGrows := by
  intro i s t run
  obtain ⟨grew, later⟩ : Grew s t :=
    (kept_grew s).exec (fun _ _ _ _ h => h) (fun _ _ h => h) run ⟨⟨[], (List.append_nil _).symm⟩, le_rfl⟩
  exact ⟨grew, later, exec_samePlatform run⟩

/-- What lies in the past of a clock reading lies in the past of a later one. -/
theorem inOrder_mono {now later : Nat} {log : List Stamp} (h : InOrder now log) (le : now ≤ later) :
    InOrder later log := by
  cases log with
  | nil => trivial
  | cons st earlier => exact ⟨h.1.trans le, h.2⟩

/-- One more event keeps the trace timely: it starts no earlier than the clock stood and ends at the clock. -/
theorem timely_snoc {s t : State} {st : Stamp} (h : Timely s) (log : t.log = st :: s.log) (after : s.now ≤ st.start)
    (timed : WellTimed st) (ends : st.stop ≤ t.now) : Timely t := by
  rw [Timely, log]
  exact ⟨ends, timed, inOrder_mono h after⟩

theorem kept_timely : Kept Timely where
  setLine l v s h := timely_snoc h (setLine_log l v s) (Nat.le_add_right _ _) le_rfl le_rfl
  writeNibble n s h := timely_snoc h (writeNibble_log n s) (Nat.le_add_right _ _) le_rfl le_rfl
  readNibble s h := timely_snoc h (readNibble_log s) (Nat.le_add_right _ _) le_rfl le_rfl
  readLine l s h := timely_snoc h (readLine_log l s) (Nat.le_add_right _ _) le_rfl le_rfl
  wait d s h := by
    have up := le_roundUp (tickOf s.config) d
    exact timely_snoc h (wait_log d s) (Nat.le_add_right _ _) (by simp only [WellTimed]; omega) le_rfl
  advance d s h := inOrder_mono h (by rw [advance_now]; omega)
  registers _ _ _ _ h := h
  position _ _ h := h
  driver _ _ _ h := h

/-- Settles O54: every update of a step stamps its event from the clock on, a wait with at least what was asked. -/
theorem stepKeepsTheTraceTimely : Obligations.StepKeepsTheTraceTimely := fun _ _ h run =>
  kept_timely.step (fun _ _ _ _ h => h) (fun _ _ h => h) (fun _ _ h => h) run h

/-! ### The output latches -/

/-- An event that does to the latches what replaying it does keeps them as told. -/
theorem linesTold_snoc {s t : State} {e : Event} (h : LinesTold s) (events : t.events = s.events ++ [e])
    (lines : t.lines = applyEvent s.lines e) (platform : t.config = s.config) : LinesTold t := by
  have told : s.lines = s.events.foldl applyEvent s.config.lineReset := h
  rw [LinesTold, lines, events, platform, replay, List.foldl_append, ← told]
  rfl

theorem kept_linesTold : Kept LinesTold where
  setLine l v s h := linesTold_snoc h (setLine_events l v s) rfl rfl
  writeNibble n s h := linesTold_snoc h (writeNibble_events n s) rfl rfl
  readNibble s h := linesTold_snoc h (readNibble_events s) rfl rfl
  readLine l s h := linesTold_snoc h (readLine_events l s) rfl rfl
  wait d s h := linesTold_snoc h (wait_events d s) rfl rfl
  advance _ _ h := h
  registers _ _ _ _ h := h
  position _ _ h := h
  driver _ _ _ h := h

/-- Settles O55: every update of a step does to the latches what its event says. -/
theorem stepKeepsTheLinesTold : Obligations.StepKeepsTheLinesTold := fun _ _ h run =>
  kept_linesTold.step (fun _ _ _ _ h => h) (fun _ _ h => h) (fun _ _ h => h) run h

/-! ### The interrupt mask -/

theorem suppress_events (s : State) : (suppress s).events = s.events := by
  simp [State.events, State.trace]

theorem restore_events (captured : List Nat) (s : State) : (restore captured s).events = s.events := by
  simp [State.events, State.trace]

/-- Settles O23: the fields of the suppressed state, the enabled set by whether the mask is effective. -/
theorem imsuppressCapturesTheSet : Obligations.ImsuppressCapturesTheSet := by
  intro s free
  refine ⟨_, exec_imsuppress_eq_next free, by simp [Performed, suppress_events],
    ⟨⟨s.tokensIssued, s.irqEnabled⟩, by simp [DoneWith]⟩, by simp, fun effective => ?_, fun without => ?_, ?_⟩
  · simp [effective]
  · simp [without]
  · simp [SameRegisters, SameDriver, SamePlatform, Drew]

/-- Settles O24: the fields of the restored state, the enabled set by whether the mask is effective. -/
theorem imrestoreEnablesTheCapturedSet : Obligations.ImrestoreEnablesTheCapturedSet := by
  intro s p outstanding
  refine ⟨_, exec_imrestore_eq_next outstanding, by simp [Performed, restore_events], by simp, fun effective => ?_,
    fun without => ?_, ?_⟩
  · simp [effective]
  · simp [without]
  · simp [SameRegisters, SameDriver, SamePlatform, Drew, DoneWith]

/-- Settles O25: by what is outstanding. -/
theorem tokenMisuseRefused : Obligations.TokenMisuseRefused := by
  refine fun s => ⟨fun p outstanding => ?_, fun tok free => ?_, fun p tok outstanding other => ?_⟩
  · simp only [exec, execImsuppress, outstanding]
  · exact exec_imrestore_eq_refused (by simp [free])
  · exact exec_imrestore_eq_refused (by simpa [outstanding] using other.symm)

/-- Packages an induction along a run: what every completed operation of it keeps holds at its end. -/
theorem runs_keeps {P : State → Prop} {is : List Instr} {s t : State} (run : Runs s is t)
    (keeps : ∀ i ∈ is, ∀ u v, P u → exec i u = .next v → P v) (h : P s) : P t := by
  induction is generalizing s with
  | nil => exact run ▸ h
  | cons i later ih =>
    obtain ⟨u, ran, rest⟩ := run
    exact ih rest (fun j mem => keeps j (List.mem_cons_of_mem i mem)) (keeps i List.mem_cons_self s u h ran)

/-- With a suppression outstanding, an operation that completes and is no restore leaves the mask as it was. -/
theorem exec_sameMask_of_outstanding {i : Instr} {s t : State} {p : Suppression} (outstanding : s.suppressed = some p)
    (notRestore : ∀ tok, i ≠ .imrestore tok) (run : exec i s = .next t) : SameMask s t := by
  by_cases suppress : i = .imsuppress
  · subst suppress
    cases ((tokenMisuseRefused s).1 p outstanding).symm.trans run
  · exact onlyTheMaskTouchesTheMask i s t suppress notRestore run

/-- The token was handed out and is not outstanding, nor will it be: later ones are numbered from there on (log 8). -/
def Spent (tok : Nat) (s : State) : Prop := tok < s.tokensIssued ∧ ∀ p, s.suppressed = some p → tok < p.token

/-- A spent token stays spent. -/
theorem exec_keeps_spent {tok : Nat} {i : Instr} {s t : State} (h : Spent tok s) (run : exec i s = .next t) :
    Spent tok t := by
  obtain ⟨issued, above⟩ := h
  cases answered_of_exec run with
  | suppressed => exact ⟨issued.trans (Nat.lt_succ_self _), fun p e => Option.some.inj e ▸ issued⟩
  | restored => exact ⟨issued, nofun⟩
  | ran sound leaves =>
    obtain ⟨suppressed, -, count⟩ := onlyTheMaskTouchesTheMask i s _ leaves.1 leaves.2 run
    rw [Spent, suppressed, count]
    exact ⟨issued, above⟩

theorem Spent.refused {tok : Nat} {s : State} (h : Spent tok s) :
    exec (.imrestore tok) s = .refused (.tokenMisuse tok) :=
  exec_imrestore_eq_refused fun p outstanding => (h.2 p outstanding).ne'

/-- Settles O26: the suppression stays outstanding through the first run, and its token stays spent through the second. -/
theorem suppressThenRestore : Obligations.SuppressThenRestore := by
  intro is s t u tok suppressed token noRestore run
  cases answered_of_exec suppressed with
  | ran _ leaves => exact absurd rfl leaves.1
  | suppressed free =>
    obtain rfl := Completion.token.inj token
    set t := complete (.token s.tokensIssued) (suppress s)
    obtain ⟨⟨outstanding, enabled, issued⟩, platform⟩ : SameMask t u ∧ u.config = t.config := by
      refine runs_keeps run (P := fun u => SameMask t u ∧ u.config = t.config) ?_ ⟨⟨rfl, rfl, rfl⟩, rfl⟩
      rintro i mem u v ⟨⟨outstanding, enabled, issued⟩, platform⟩ ran
      obtain ⟨a, b, c⟩ := exec_sameMask_of_outstanding outstanding (fun k e => noRestore k (e ▸ mem)) ran
      exact ⟨⟨a.trans outstanding, b.trans enabled, c.trans issued⟩, (exec_samePlatform ran).1.trans platform⟩
    refine ⟨_, exec_imrestore_eq_next outstanding, ?_, fun later w ran => ?_⟩
    · have restored : (if u.config.maskEffective then s.irqEnabled else u.irqEnabled) = s.irqEnabled := by
        rw [platform, enabled]
        cases effective : s.config.maskEffective <;> simp [t, effective]
      exact restored
    · refine Spent.refused (runs_keeps ran (P := Spent s.tokensIssued) (fun i _ u v => exec_keeps_spent) ?_)
      refine ⟨?_, nofun⟩
      show _ < u.tokensIssued
      rw [issued]
      exact Nat.lt_succ_self _

/-! ### Reset -/

/-- Settles O57: the trace is empty, and the fields of the reset state are those asked for. -/
theorem resetMeetsTheInvariants : Obligations.ResetMeetsTheInvariants :=
  ⟨trivial, rfl, ⟨rfl, rfl, rfl⟩, nofun⟩

end Sys2Proof.Machine
end

section
/-! The timer (40_timer.md R71 to R76): the spin loop on clock readings, WAITNS, and how the two agree. -/

namespace Sys2Proof.Machine

open Sys2Proof.Safety

/-! ### The spin loop -/

/-- Settles O15: by the readings, the first one ending the loop or standing below the deadline. -/
theorem pollLoopStopsAtTheDeadline : Obligations.PollLoopStopsAtTheDeadline := by
  intro t0 d t readings
  induction readings with
  | nil => simp [pollLoop]
  | cons u later ih =>
    rw [pollLoop]
    split
    case isTrue reached =>
      constructor
      · intro e
        cases e
        exact ⟨reached, [], later, rfl, nofun⟩
      · rintro ⟨-, before, after, split, below⟩
        cases before with
        | nil => rw [(List.cons.inj split).1]
        | cons b more =>
          have := below b List.mem_cons_self
          have := (List.cons.inj split).1
          omega
    case isFalse short =>
      rw [ih]
      constructor
      · rintro ⟨reached, before, after, rfl, below⟩
        refine ⟨reached, u :: before, after, rfl, ?_⟩
        intro v mem
        obtain rfl | mem := List.mem_cons.mp mem
        · omega
        · exact below v mem
      · rintro ⟨reached, before, after, split, below⟩
        cases before with
        | nil =>
          have := (List.cons.inj split).1
          omega
        | cons b more =>
          exact ⟨reached, more, after, (List.cons.inj split).2, fun v mem => below v (List.mem_cons_of_mem b mem)⟩

/-- What the spin loop returns reaches the deadline and is one of the readings. -/
theorem pollLoop_eq_some {t0 d t : Nat} {readings : List Nat} (h : pollLoop t0 d readings = some t) :
    t0 + d ≤ t ∧ t ∈ readings := by
  obtain ⟨reached, before, after, rfl, -⟩ := (pollLoopStopsAtTheDeadline t0 d t readings).mp h
  exact ⟨reached, List.mem_append_right _ List.mem_cons_self⟩

/-- The loop returns once some reading reaches the deadline. -/
theorem exists_pollLoop_eq_some {t0 d u : Nat} {readings : List Nat} (mem : u ∈ readings) (reached : t0 + d ≤ u) :
    ∃ t, pollLoop t0 d readings = some t := by
  induction readings with
  | nil => cases mem
  | cons v later ih =>
    rw [pollLoop]
    split
    case isTrue => exact ⟨v, rfl⟩
    case isFalse short =>
      obtain rfl | mem := List.mem_cons.mp mem
      · exact absurd reached short
      · exact ih mem

/-- Settles O17: the poll that passes the deadline ends the loop, if none before it did. -/
theorem fairClockEndsTheWait : Obligations.FairClockEndsTheWait := by
  intro clock t0 d fair
  obtain ⟨n, passed⟩ := fair (t0 + d)
  have polled : clock n ∈ (List.range (n + 1)).map clock := List.mem_map_of_mem (List.mem_range.mpr n.lt_succ_self)
  obtain ⟨t, returned⟩ := exists_pollLoop_eq_some polled passed
  exact ⟨n + 1, t, returned, (pollLoop_eq_some returned).1⟩

/-! ### WAITNS -/

theorem exec_waitns (d : Nat) (s : State) : exec (.waitns d) s = .next (complete .nothing (wait d s)) := rfl

/-- After a draw of time the coming draws move up by one. -/
theorem advance_delayAt (d : Nat) (s : State) (k : Nat) : delayAt (advance d s) k = delayAt s (k + 1) := by
  have index : s.delayCount + 1 + k = s.delayCount + (k + 1) := by omega
  simp [delayAt, index]

/-- One event more in the trace is the one new stamp. -/
theorem newStamps_of_log_cons {s t : State} {st : Stamp} (log : t.log = st :: s.log) : newStamps s t = [st] := by
  rw [newStamps, State.trace, State.trace, log, List.reverse_cons, List.drop_left]

/-- With the next two draws listed, WAITNS lasts its gap, its rounded argument and its overshoot. -/
theorem wait_now_of_delays (d g e : Nat) (s : State) :
    (wait d { s with delays := g :: e :: s.delays }).now = s.now + g + roundUp (tickOf s.config) d + e := rfl

/-- WAITNS can end at any whole number of ticks from its rounded argument on, whatever its gap. -/
theorem exec_waitns_ends_at {d n : Nat} (g : Nat) (s : State) (enough : roundUp (tickOf s.config) d ≤ n) :
    ∃ e t, exec (.waitns d) { s with delays := g :: e :: s.delays } = .next t ∧ t.now = s.now + g + n ∧
      Performed s t [.dwell d] := by
  refine ⟨n - roundUp (tickOf s.config) d, _, exec_waitns d _, ?_, wait_events d _⟩
  simp only [complete_frame, wait_now_of_delays]
  omega

/-- A reading of the platform's clock that reaches the deadline reaches the rounded argument (40_timer.md R75(b)). -/
theorem roundUp_le_of_onTheClock {d u : Nat} {s : State} {readings : List Nat} (shown : OnTheClock s readings)
    (mem : u ∈ readings) (reached : s.now + d ≤ u) : ∃ n, roundUp (tickOf s.config) d ≤ n ∧ u = s.now + n := by
  obtain ⟨-, whole⟩ := shown u mem
  exact ⟨u - s.now, roundUp_le (tickOf_pos s.config) whole (by omega), by omega⟩

/-- Settles O16: the overshoot is what the loop's reading lies past the rounded argument. -/
theorem waitnsMatchesThePollLoop : Obligations.WaitnsMatchesThePollLoop := by
  intro d t s readings shown returned
  obtain ⟨reached, mem⟩ := pollLoop_eq_some returned
  obtain ⟨n, enough, rfl⟩ := roundUp_le_of_onTheClock shown mem reached
  exact exec_waitns_ends_at 0 s enough

/-- Settles O14: the least whole number of ticks is the rounded argument; the rest are the fields of the state after the
wait, and the durations and the loop's readings it can end at. -/
theorem waitnsLastsDPlusDraw : Obligations.WaitnsLastsDPlusDraw := by
  intro d s
  refine ⟨roundUp (tickOf s.config) d, dvd_roundUp (tickOf_pos _) d, le_roundUp _ d, roundUp_lt _ d (tickOf_pos _),
    ⟨_, exec_waitns d s, by simp [Performed], ?_, ?_, ?_⟩, fun g n enough => ?_, fun clock fair shown => ?_⟩
  · simp only [complete_frame, wait_now, advance_delayAt, Nat.zero_add]
  · rw [newStamps_of_log_cons (t := complete .nothing (wait d s)) (wait_log d s), ← advance_delayAt 0 s 0]
    rfl
  · simp [SameRegisters, SameDriver, SameMask, SamePlatform, Drew, DoneWith, ← List.drop_one]
  · obtain ⟨e, t, ran, now, -⟩ := exec_waitns_ends_at g s enough
    exact ⟨e, t, ran, now⟩
  · obtain ⟨n, u, returned, reached⟩ := fairClockEndsTheWait clock s.now d fair
    obtain ⟨k, -, rfl⟩ := List.mem_map.mp (pollLoop_eq_some returned).2
    obtain ⟨m, enough, now⟩ := roundUp_le_of_onTheClock (shown k) List.mem_cons_self reached
    obtain ⟨e, t, ran, ended, -⟩ := exec_waitns_ends_at 0 s enough
    exact ⟨e, t, n, ran, by rw [returned, now, ended]; rfl⟩

/-- `d` rounded up to whole ticks lies below every whole number of ticks from `d` on. -/
theorem ceil_mul_le {tick d n : Nat} (pos : 0 < tick) (whole : tick ∣ n) (enough : d ≤ n) :
    (d + tick - 1) / tick * tick ≤ n := by
  obtain ⟨b, rfl⟩ := whole
  rw [Nat.mul_comm tick b]
  apply Nat.mul_le_mul_right
  rw [← Nat.lt_succ_iff, Nat.div_lt_iff_lt_mul pos, Nat.succ_mul, Nat.mul_comm b]
  omega

/-- Settles O18: both end a whole number of ticks after they start, and no less than `d`. -/
theorem coarseClockRoundsUp : Obligations.CoarseClockRoundsUp := by
  refine ⟨fun tick n t0 d t readings pos start ticks returned => ?_, fun d s => ⟨_, exec_waitns d s, ?_, ?_⟩⟩
  · obtain ⟨reached, mem⟩ := pollLoop_eq_some returned
    have whole : tick ∣ t - t0 := Nat.dvd_sub (ticks t mem) (start ▸ Nat.dvd_mul_left tick n)
    have least := ceil_mul_le pos whole (d := d) (by omega)
    omega
  · have least := ceil_mul_le (tickOf_pos s.config) (dvd_roundUp (tickOf_pos s.config) d) (le_roundUp _ d)
    have ended : (complete .nothing (wait d s)).now = (wait d s).now := rfl
    rw [ended, wait_now]
    omega
  · exact le_max_right _ _

/-! ### Completion -/

/-- Settles O7: a well-formed operation is refused by the mask alone, and the loop of any wait ends under a fair clock. -/
theorem operationsComplete : Obligations.OperationsComplete := by
  intro clock i s fair sound free owned
  have loops : ∀ t, ∀ st ∈ newStamps s t, ∀ d, st.event = .dwell d →
      ∃ n u, pollLoop st.start d ((List.range n).map clock) = some u := by
    intro t st _ d _
    obtain ⟨n, u, returned, -⟩ := fairClockEndsTheWait clock st.start d fair
    exact ⟨n, u, returned⟩
  cases ran : exec i s with
  | next t => exact ⟨t, rfl, (exec_idle ran).1, loops t⟩
  | fault f => exact absurd ran (nothingFaults.1 i s f)
  | refused r =>
    obtain ⟨d, defect, -⟩ | ⟨suppress, outstanding, -⟩ | ⟨tok, restore, other, -⟩ := onlyTheseAreRefused i s r ran
    · cases sound.symm.trans defect
    · exact absurd (free suppress) outstanding
    · obtain ⟨p, outstanding, same⟩ := owned tok restore
      exact absurd same (other p outstanding)

end Sys2Proof.Machine
end

section
/-! The sub-cycle (42_phase_sequencer.md R90 to R101): what a phase slot performs, where, for how long and with which
samples, put together over the slots; what the hooks leave in the registers; the phases and SUBCYC. -/

namespace Sys2Proof.Machine

open Sys2Proof.Safety

/-! ### What a part of an operation did -/

/-- A part of an operation did what `Ran` says at the positions `ps`, taking at least a timing unit for each dwell, and
kept the platform. -/
structure Did (ps : List Pc) (es : List Event) (n : Nat) (s t : State) : Prop extends Ran es n s t where
  config : t.config = s.config
  placed : ∃ new, t.trace = s.trace ++ new ∧ new.map Stamp.pc = ps
  time : s.now + es.countP isDwell * s.config.tunit ≤ t.now

theorem Did.trans {ps qs : List Pc} {es fs : List Event} {m n : Nat} {s t u : State} (a : Did ps es m s t)
    (b : Did qs fs n t u) : Did (ps ++ qs) (es ++ fs) (m + n) s u where
  toRan := a.toRan.trans b.toRan
  config := b.config.trans a.config
  placed := by
    obtain ⟨new, grew, rfl⟩ := a.placed
    obtain ⟨later, grew', rfl⟩ := b.placed
    exact ⟨new ++ later, by rw [grew', grew, List.append_assoc], List.map_append⟩
  time := by
    have first := a.time
    have rest := b.time
    rw [a.config] at rest
    rw [List.countP_append, Nat.add_mul]
    omega

/-- Nothing was done but to move the position or to write registers and the driver's fields. -/
theorem Did.still {s t : State}
    (same : t.config = s.config ∧ t.lines = s.lines ∧ t.answers = s.answers ∧ t.sampleCount = s.sampleCount ∧
      t.delays = s.delays ∧ t.delayCount = s.delayCount ∧ t.now = s.now ∧ t.log = s.log) : Did [] [] 0 s t := by
  obtain ⟨config, lines, answers, sampleCount, delays, delayCount, now, log⟩ := same
  exact ⟨⟨by simp [State.events, State.trace, log], lines, answers, sampleCount, delays, delayCount, now.ge⟩, config,
    ⟨[], by simp [State.trace, log], rfl⟩, by simp [now]⟩

/-- A part without a dwell. -/
theorem Did.of_ran {k : Kind} {ps : List Place} {es : List Event} {n : Nat} {s t : State} (ran : Ran es n s t)
    (placed : Placed k ps s t) (config : t.config = s.config) (undwelt : es.countP isDwell = 0) :
    Did (ps.map (placeAt k)) es n s t :=
  ⟨ran, config, placed, by rw [undwelt, Nat.zero_mul]; exact ran.now⟩

theorem Did.newPlaces {ps : List Pc} {es : List Event} {n : Nat} {s t : State} (a : Did ps es n s t) :
    newPlaces s t = ps := by
  obtain ⟨new, grew, places⟩ := a.placed
  rw [Safety.newPlaces, newStamps, grew, List.drop_left, places]

/-! ### The events of a slot -/

theorem edgeEvents_countP_isDwell (i : PhaseIndex) : (edgeEvents i).countP isDwell = 0 := by
  revert i
  decide

theorem hookEvents_countP_isDwell (s : State) (k : Nat) (as : List HookAction) :
    (hookEvents s k as).countP isDwell = 0 := by
  induction as generalizing k with
  | nil => rfl
  | cons a later ih =>
    rw [hookEvents, List.countP_append, ih]
    cases a <;> rfl

/-- The events of a slot do not depend on where the sample count starts, only on the coming answers. -/
theorem slotsTrace_shift {s t : State} {n : Nat} (config : t.config = s.config)
    (answers : ∀ k, answerAt t k = answerAt s (n + k)) (hooks : Hooks) (is : List PhaseIndex) (k : Nat) :
    slotsTrace t hooks k is = slotsTrace s hooks (n + k) is := by
  induction is generalizing k with
  | nil => rfl
  | cons i later ih => rw [slotsTrace, slotsTrace, ih, hookEvents_shift answers, config, Nat.add_assoc]

/-- A list of slots performs its first slot's events and then the others', after the first slot's samples. -/
theorem slotsTrace_cons (s : State) (hooks : Hooks) (k : Nat) (i : PhaseIndex) (later : List PhaseIndex) :
    slotsTrace s hooks k (i :: later) =
      slotsTrace s hooks k [i] ++ slotsTrace s hooks (k + samplesOf (actionsAt hooks i)) later := by
  simp [slotsTrace]

/-- One dwell for each slot. -/
theorem slotsTrace_countP_isDwell (s : State) (hooks : Hooks) (k : Nat) (is : List PhaseIndex) :
    (slotsTrace s hooks k is).countP isDwell = is.length := by
  induction is generalizing k with
  | nil => rfl
  | cons i later ih =>
    rw [slotsTrace, List.countP_append, List.countP_append, ih]
    split <;>
      simp [List.countP_append, hookEvents_countP_isDwell, edgeEvents_countP_isDwell, isDwell, Nat.add_comm]

theorem samplesOf_append (as bs : List HookAction) : samplesOf (as ++ bs) = samplesOf as + samplesOf bs := by
  simp [samplesOf]

/-! ### A slot and a list of slots -/

theorem enterPhase_did (i : PhaseIndex) (s : State) : Did [] [] 0 s (enterPhase i s) :=
  .still ⟨rfl, rfl, rfl, rfl, rfl, rfl, rfl, rfl⟩

theorem clockEdge_did {i : PhaseIndex} {s : State} (at_i : s.pc.phase = i) :
    Did ((edgePlaces i).map (placeAt s.pc.kind)) (edgeEvents i) 0 s (clockEdge i s) :=
  .of_ran (clockEdge_ran i s) (clockEdge_placed at_i) (clockEdge_frame i s).1.config (edgeEvents_countP_isDwell i)

theorem runActions_did {i : PhaseIndex} (as : List HookAction) {s : State} (at_i : s.pc.phase = i) :
    Did ((List.replicate (eventsOf as) (i, .hook)).map (placeAt s.pc.kind)) (hookEvents s 0 as) (samplesOf as) s
      (runActions as s) :=
  .of_ran (runActions_ran as s) (at_i ▸ runActions_placed as s) (runActions_frame as s).config
    (hookEvents_countP_isDwell s 0 as)

theorem dwell_did {i : PhaseIndex} {s : State} (at_i : s.pc.phase = i) :
    Did [placeAt s.pc.kind (i, .dwell)] [.dwell s.config.tunit] 0 s (dwell s) where
  toRan := dwell_ran s
  config := rfl
  placed := by
    obtain ⟨new, grew, places⟩ : Placed s.pc.kind [(i, .dwell)] s (dwell s) := .one rfl (by simp [placeAt, at_i])
    exact ⟨new, grew, places⟩
  time := by simpa [isDwell] using dwell_now_ge s

/-- The hook and the edge of a slot keep what `SlotFrame` says. -/
theorem hookAndEdge_frame (hooks : Hooks) (i : PhaseIndex) (s : State) : SlotFrame s (hookAndEdge hooks i s) := by
  unfold hookAndEdge
  split
  · exact (runActions_frame _ s).trans (clockEdge_frame i _).1
  · exact (clockEdge_frame i s).1.trans (runActions_frame _ _)

/-- The places of the hook and the edge of a slot whose hook performs `n` events (10_state.md R15). -/
def hookAndEdgePlaces (order : HookOrder) (n : Nat) (i : PhaseIndex) : List Place :=
  match order with
  | .hookThenEdge => List.replicate n (i, .hook) ++ edgePlaces i
  | .edgeThenHook => edgePlaces i ++ List.replicate n (i, .hook)

/-- The events of the hook and the edge of a slot, the next sample being the first (42_phase_sequencer.md R101). -/
def hookAndEdgeEvents (s : State) (as : List HookAction) (i : PhaseIndex) : List Event :=
  match s.config.hookOrder with
  | .hookThenEdge => hookEvents s 0 as ++ edgeEvents i
  | .edgeThenHook => edgeEvents i ++ hookEvents s 0 as

theorem slotPlaces_eq (order : HookOrder) (n : Nat) (i : PhaseIndex) :
    slotPlaces order n i = hookAndEdgePlaces order n i ++ [(i, Stage.dwell)] := by
  cases order <;> rfl

theorem slotsTrace_singleton (s : State) (hooks : Hooks) (i : PhaseIndex) :
    slotsTrace s hooks 0 [i] = hookAndEdgeEvents s (actionsAt hooks i) i ++ [Event.dwell s.config.tunit] := by
  unfold hookAndEdgeEvents
  cases order : s.config.hookOrder <;> simp [slotsTrace, order]

/-- The hook and the edge of a slot, in the order of HOOK_ORDER (42_phase_sequencer.md R100, R101). -/
theorem hookAndEdge_did {hooks : Hooks} (once : (hooks.map Prod.fst).Nodup) {i : PhaseIndex} {s : State}
    (at_i : s.pc.phase = i) :
    Did ((hookAndEdgePlaces s.config.hookOrder (eventsOf (actionsAt hooks i)) i).map (placeAt s.pc.kind))
      (hookAndEdgeEvents s (actionsAt hooks i) i) (samplesOf (actionsAt hooks i)) s (hookAndEdge hooks i s) := by
  unfold hookAndEdge hookAndEdgePlaces hookAndEdgeEvents
  rw [hookAt_eq once i]
  generalize actionsAt hooks i = as
  cases s.config.hookOrder
  · have f := runActions_frame as s
    have first := runActions_did as at_i
    have edge := clockEdge_did (f.phase.trans at_i)
    rw [f.kind] at edge
    rw [List.map_append]
    exact first.trans edge
  · have f := (clockEdge_frame i s).1
    have edge := clockEdge_did at_i
    have rest := runActions_did as (f.phase.trans at_i)
    rw [f.kind, hookEvents_shift edge.answerAt] at rest
    rw [List.map_append, ← Nat.zero_add (samplesOf as)]
    exact edge.trans rest

/-- One phase slot: the hook and the edge, and then a dwell (42_phase_sequencer.md R100). -/
theorem runSlot_did {hooks : Hooks} (once : (hooks.map Prod.fst).Nodup) (i : PhaseIndex) (s : State) :
    Did ((slotPlaces s.config.hookOrder (eventsOf (actionsAt hooks i)) i).map (placeAt s.pc.kind))
      (slotsTrace s hooks 0 [i]) (samplesOf (actionsAt hooks i)) s (runSlot hooks i s) := by
  have f := hookAndEdge_frame hooks i (enterPhase i s)
  have entered := enterPhase_did i s
  have acted := hookAndEdge_did once (i := i) (s := enterPhase i s) rfl
  have ended := dwell_did (i := i) f.phase
  have same : hookAndEdgeEvents (enterPhase i s) (actionsAt hooks i) i = hookAndEdgeEvents s (actionsAt hooks i) i := by
    unfold hookAndEdgeEvents
    rw [hookEvents_shift entered.answerAt]
    rfl
  rw [f.kind, f.config] at ended
  rw [same] at acted
  have all := entered.trans (acted.trans ended)
  rw [slotPlaces_eq, List.map_append, slotsTrace_singleton]
  simp only [List.nil_append, Nat.zero_add] at all
  exact all

theorem dwell_slotFrame (s : State) : SlotFrame s (dwell s) := ⟨rfl, rfl, rfl, rfl, rfl, rfl, rfl, rfl, rfl, rfl⟩

/-- What a sub-cycle keeps of the driver and of the position. -/
theorem runSlot_frame (hooks : Hooks) (i : PhaseIndex) (s : State) :
    SameDriver s (runSlot hooks i s) ∧ (runSlot hooks i s).pc.kind = s.pc.kind ∧ (runSlot hooks i s).pc.phase = i := by
  have f := (hookAndEdge_frame hooks i (enterPhase i s)).trans (dwell_slotFrame _)
  exact ⟨⟨f.counter, f.buffer⟩, f.kind, f.phase⟩

theorem slots_frame (hooks : Hooks) (is : List PhaseIndex) (s : State) :
    SameDriver s (is.foldl (fun t i => runSlot hooks i t) s) ∧
      (is.foldl (fun t i => runSlot hooks i t) s).pc.kind = s.pc.kind := by
  induction is generalizing s with
  | nil => exact ⟨⟨rfl, rfl⟩, rfl⟩
  | cons i later ih =>
    obtain ⟨⟨counter, buffer⟩, kind, -⟩ := runSlot_frame hooks i s
    obtain ⟨⟨counter', buffer'⟩, kind'⟩ := ih (runSlot hooks i s)
    exact ⟨⟨counter'.trans counter, buffer'.trans buffer⟩, kind'.trans kind⟩

theorem slots_did {hooks : Hooks} (once : (hooks.map Prod.fst).Nodup) (is : List PhaseIndex) (s : State) :
    Did ((slotsPlaces s.config.hookOrder hooks is).map (placeAt s.pc.kind)) (slotsTrace s hooks 0 is)
      (samplesOf (is.flatMap (actionsAt hooks))) s (is.foldl (fun t i => runSlot hooks i t) s) := by
  induction is generalizing s with
  | nil => exact Did.still ⟨rfl, rfl, rfl, rfl, rfl, rfl, rfl, rfl⟩
  | cons i later ih =>
    have first := runSlot_did once i s
    have rest := ih (runSlot hooks i s)
    obtain ⟨-, kind, -⟩ := runSlot_frame hooks i s
    rw [slotsTrace_shift first.config first.answerAt, first.config, kind] at rest
    have both := first.trans rest
    rw [slotsTrace_cons, List.flatMap_cons, samplesOf_append, slotsPlaces, List.flatMap_cons, List.map_append,
      Nat.zero_add]
    exact both

theorem runSubCycle_frame (hooks : Hooks) (s : State) :
    SameDriver s (runSubCycle hooks s) ∧ (runSubCycle hooks s).pc.kind = s.pc.kind := slots_frame hooks phases s

/-- A sub-cycle performs its seven slots (42_phase_sequencer.md R100). -/
theorem runSubCycle_did {hooks : Hooks} (once : (hooks.map Prod.fst).Nodup) (s : State) :
    Did ((slotsPlaces s.config.hookOrder hooks phases).map (placeAt s.pc.kind)) (slotsTrace s hooks 0 phases)
      (samplesOf (actionsInOrder hooks)) s (runSubCycle hooks s) := slots_did once phases s

/-! ### The registers after hooks -/

theorem csAfter_append (as bs : List HookAction) (c : Option Nat) :
    csAfter (as ++ bs) c = csAfter bs (csAfter as c) := by
  induction as generalizing c with
  | nil => rfl
  | cons a later ih =>
    cases a with
    | update u => cases u <;> exact ih _
    | _ => exact ih _

theorem addrAfter_append (as bs : List HookAction) (b : Option Byte) :
    addrAfter (as ++ bs) b = addrAfter bs (addrAfter as b) := by
  induction as generalizing b with
  | nil => rfl
  | cons a later ih =>
    cases a with
    | update u => cases u <;> exact ih _
    | _ => exact ih _

/-- The result after one action and then others. -/
theorem resultAfter_cons (s : State) (u : Byte) (k : Nat) (a : HookAction) (later : List HookAction) (r : Option Byte) :
    resultAfter s u k (a :: later) r = resultAfter s u (k + actionSamples a) later (resultAfter s u k [a] r) := by
  cases a with
  | update u => cases u <;> rfl
  | rdNib use => cases use <;> rfl
  | _ => rfl

theorem resultAfter_append (s : State) (u : Byte) (k : Nat) (as bs : List HookAction) (r : Option Byte) :
    resultAfter s u k (as ++ bs) r = resultAfter s u (k + samplesOf as) bs (resultAfter s u k as r) := by
  induction as generalizing k r with
  | nil => rfl
  | cons a later ih =>
    have samples : samplesOf (a :: later) = actionSamples a + samplesOf later := samplesOf_append [a] later
    rw [List.cons_append, resultAfter_cons, ih, resultAfter_cons s u k a later, samples, Nat.add_assoc]

/-- The result depends on the coming answers alone. -/
theorem resultAfter_shift {s t : State} {n : Nat} (answers : ∀ k, answerAt t k = answerAt s (n + k)) (u : Byte)
    (k : Nat) (as : List HookAction) (r : Option Byte) : resultAfter t u k as r = resultAfter s u (n + k) as r := by
  induction as generalizing k r with
  | nil => rfl
  | cons a later ih =>
    have here : resultAfter t u k [a] r = resultAfter s u (n + k) [a] r := by
      cases a with
      | update u => cases u <;> rfl
      | rdNib use => cases use <;> simp [resultAfter, answers]
      | _ => rfl
    rw [resultAfter_cons, resultAfter_cons s, here, ih, Nat.add_assoc]

/-- The registers of `t` are those of `s` after the hook actions `as` (30_encoding.md R64; 43_cycle_engine.md R114,
R115). -/
structure RegistersAfter (as : List HookAction) (s t : State) : Prop where
  cs : t.cs = csAfter as s.cs
  addr : t.addr = addrAfter as s.addr
  result : t.result = resultAfter s Config.unwrittenResult 0 as s.result

theorem RegistersAfter.trans {as bs : List HookAction} {s t u : State} (a : RegistersAfter as s t)
    (b : RegistersAfter bs t u) (answers : ∀ k, answerAt t k = answerAt s (samplesOf as + k)) :
    RegistersAfter (as ++ bs) s u where
  cs := by rw [csAfter_append, b.cs, a.cs]
  addr := by rw [addrAfter_append, b.addr, a.addr]
  result := by rw [resultAfter_append, b.result, a.result, resultAfter_shift answers, Nat.add_zero, Nat.zero_add]

/-- The sample of DataHigh is the high nibble, above a low nibble of 0 (43_cycle_engine.md R114). -/
theorem highSample_eq_append (h : Nibble) : highSample h = h ++ (0 : Nibble) := by
  revert h
  decide

theorem runAction_registers (a : HookAction) (s : State) : RegistersAfter [a] s (runAction a s) := by
  cases a with
  | update u => cases u <;> exact ⟨rfl, rfl, rfl⟩
  | rdNib use =>
    cases use with
    | resultHigh =>
      refine ⟨rfl, rfl, ?_⟩
      show some (highSample (answerAt s 0)) = some (answerAt s 0 ++ (0 : Nibble))
      rw [highSample_eq_append]
    | discard => exact ⟨rfl, rfl, rfl⟩
    | resultLow => exact ⟨rfl, rfl, rfl⟩
  | _ => exact ⟨rfl, rfl, rfl⟩

theorem runActions_registers (as : List HookAction) (s : State) : RegistersAfter as s (runActions as s) := by
  induction as generalizing s with
  | nil => exact ⟨rfl, rfl, rfl⟩
  | cons a later ih =>
    have samples : samplesOf [a] = actionSamples a := Nat.add_zero _
    exact (runAction_registers a s).trans (ih _) (samples ▸ (runAction_ran a s).answerAt)

theorem dwell_registers (s : State) : RegistersAfter [] s (dwell s) := by
  constructor <;> simp [csAfter, addrAfter, resultAfter]

/-- Only the hook of a slot writes registers. -/
theorem runSlot_registers {hooks : Hooks} (once : (hooks.map Prod.fst).Nodup) (i : PhaseIndex) (s : State) :
    RegistersAfter (actionsAt hooks i) s (runSlot hooks i s) := by
  have edge (u : State) : RegistersAfter [] u (clockEdge i u) := by
    obtain ⟨-, cs, addr, result⟩ := clockEdge_frame i u
    exact ⟨cs, addr, result⟩
  have hook := runActions_registers (actionsAt hooks i)
  have acted : RegistersAfter (actionsAt hooks i) (enterPhase i s) (hookAndEdge hooks i (enterPhase i s)) := by
    unfold hookAndEdge
    rw [hookAt_eq once i]
    split
    · simpa using (hook _).trans (edge _) (runActions_ran _ _).answerAt
    · exact (edge _).trans (hook _) (clockEdge_ran i _).answerAt
  have entered : RegistersAfter [] s (enterPhase i s) := ⟨rfl, rfl, rfl⟩
  have done := (entered.trans acted (enterPhase_did i s).answerAt).trans (dwell_registers _)
    (hookAndEdge_did once (s := enterPhase i s) rfl).answerAt
  rw [runSlot]
  simpa using done

theorem slots_registers {hooks : Hooks} (once : (hooks.map Prod.fst).Nodup) (is : List PhaseIndex) (s : State) :
    RegistersAfter (is.flatMap (actionsAt hooks)) s (is.foldl (fun t i => runSlot hooks i t) s) := by
  induction is generalizing s with
  | nil => exact ⟨rfl, rfl, rfl⟩
  | cons i later ih => exact (runSlot_registers once i s).trans (ih _) (runSlot_did once i s).answerAt

theorem runSubCycle_registers {hooks : Hooks} (once : (hooks.map Prod.fst).Nodup) (s : State) :
    RegistersAfter (actionsInOrder hooks) s (runSubCycle hooks s) := slots_registers once phases s

/-! ### Obligations on the phases and on SUBCYC -/

/-- What the body of an operation did, seen from its completion. -/
theorem sequencerDone_of_did {i : Instr} {kind : Kind} {places : List Place} {es : List Event}
    {ls : OutLines (Option Level)} {n k : Nat} {s : State}
    (did : Did (places.map (placeAt kind)) es k s (bodyOf i s)) (lines : replay es s.lines = ls)
    (dwells : es.countP isDwell = n) (registers : (bodyOf i s).cs = s.cs ∧ (bodyOf i s).addr = s.addr)
    (driver : SameDriver s (bodyOf i s)) :
    SequencerDone kind places es ls n k s (complete .nothing (bodyOf i s)) :=
  ⟨did.events, did.lines.trans lines, dwells ▸ did.time, did.newPlaces, registers.1, registers.2, driver,
    (kept_sameMask s).bodyOf i s ⟨rfl, rfl, rfl⟩, (kept_samePlatform s).bodyOf i s ⟨rfl, rfl⟩,
    ⟨did.answers, did.sampleCount, did.delays, did.delayCount⟩, rfl, rfl, rfl⟩

/-- A phase is a slot without a hook (42_phase_sequencer.md R90, R100). -/
theorem runPhase_eq_runSlot (i : PhaseIndex) (s : State) : runPhase i s = runSlot [] i s := by
  unfold runSlot hookAndEdge
  split <;> rfl

/-- The places of a slot without a hook. -/
theorem slotPlaces_zero (order : HookOrder) (i : PhaseIndex) :
    slotPlaces order 0 i = edgePlaces i ++ [(i, Stage.dwell)] := by
  cases order <;> simp [slotPlaces]

/-- The events of a slot without a hook. -/
theorem slotsTrace_nil_singleton (s : State) (i : PhaseIndex) :
    slotsTrace s [] 0 [i] = edgeEvents i ++ [Event.dwell s.config.tunit] := by
  cases order : s.config.hookOrder <;> simp [slotsTrace, order, actionsAt, hookEvents]

/-- A phase performs its edge, if it has one, and a dwell. -/
theorem runPhase_did (i : PhaseIndex) (s : State) :
    Did ((edgePlaces i ++ [(i, Stage.dwell)]).map (placeAt s.pc.kind)) (edgeEvents i ++ [Event.dwell s.config.tunit])
      0 s (runPhase i s) := by
  have slot := runSlot_did (hooks := []) List.nodup_nil i s
  rw [slotsTrace_nil_singleton] at slot
  rw [runPhase_eq_runSlot, ← slotPlaces_zero s.config.hookOrder]
  exact slot

/-- A phase requested on its own, under the operation whose body it is. -/
theorem runPhase_done {instr : Instr} {i : PhaseIndex} {s : State} (body : bodyOf instr s = runPhase i s) :
    (complete .nothing (bodyOf instr s)).result = s.result ∧ (complete .nothing (bodyOf instr s)).pc.phase = i ∧
    SequencerDone s.pc.kind (edgePlaces i ++ [(i, Stage.dwell)]) (edgeEvents i ++ [Event.dwell s.config.tunit])
      (replay (edgeEvents i) s.lines) 1 0 s (complete .nothing (bodyOf instr s)) := by
  have slot := runPhase_eq_runSlot i s
  obtain ⟨driver, -, phase⟩ := runSlot_frame [] i s
  obtain ⟨cs, addr, result⟩ := runSlot_registers (hooks := []) List.nodup_nil i s
  rw [← slot, ← body] at driver phase cs addr result
  have did := runPhase_did i s
  rw [← body] at did
  refine ⟨result, phase, sequencerDone_of_did did ?_ ?_ ⟨cs, addr⟩ driver⟩
  · rw [replay, List.foldl_append]; rfl
  · rw [List.countP_append, edgeEvents_countP_isDwell]; rfl

/-- Settles O27: each phase is its edge and a dwell. -/
theorem phasesEdgeThenDwell : Obligations.PhasesEdgeThenDwell := fun _ =>
  ⟨⟨rfl, _, rfl, runPhase_done (instr := .phase0) rfl⟩, ⟨rfl, _, rfl, runPhase_done (instr := .phase1) rfl⟩,
    ⟨rfl, _, rfl, runPhase_done (instr := .phase2) rfl⟩, ⟨rfl, _, rfl, runPhase_done (instr := .phase3) rfl⟩,
    ⟨rfl, _, rfl, runPhase_done (instr := .phase4) rfl⟩, ⟨rfl, _, rfl, runPhase_done (instr := .phase5) rfl⟩,
    ⟨rfl, _, rfl, runPhase_done (instr := .phase6) rfl⟩⟩

/-- Settles O28: the seven slots, what their hooks leave in the registers, and the completion. -/
theorem subcycRunsSevenSlots : Obligations.SubcycRunsSevenSlots := by
  intro hooks s below once
  have sound : (Instr.subcyc hooks).WellFormed := (hooksDefect_none_iff hooks).mpr ⟨below, once⟩
  have did := runSubCycle_did once s
  have registers := runSubCycle_registers once s
  have seven := slotsTrace_countP_isDwell s hooks 0 phases
  have time := did.time
  rw [seven] at time
  have run : exec (.subcyc hooks) s = .next (complete .nothing (runSubCycle hooks s)) :=
    exec_eq_next sound ⟨nofun, nofun⟩ s
  have mask := (kept_sameMask s).runSubCycle hooks s ⟨rfl, rfl, rfl⟩
  have platform := (kept_samePlatform s).runSubCycle hooks s ⟨rfl, rfl⟩
  obtain ⟨-, -, phase⟩ := runSlot_frame hooks 6 ([0, 1, 2, 3, 4, 5].foldl (fun t i => runSlot hooks i t) s)
  exact ⟨Config.unwrittenResult, _, run, did.events, did.lines, registers.cs,
    registers.addr, registers.result, time, phase, did.newPlaces, (runSubCycle_frame hooks s).1,
    mask, platform, ⟨did.answers, did.sampleCount, did.delays, did.delayCount⟩, rfl, rfl, rfl⟩

end Sys2Proof.Machine
end

section
/-! The cycle steps (43_cycle_engine.md R110 to R119): the sub-cycles with their hooks, the entry actions, and the nine
steps as they stand in INIT, a transaction and a scan. -/

namespace Sys2Proof.Machine

open Sys2Proof.Safety

/-! ### The sub-cycles of the steps -/

/-- A sub-cycle with hooks at the phases 0, 3 and 5 alone. -/
theorem hookedSubCycle_did {hooks : Hooks} (once : (hooks.map Prod.fst).Nodup)
    (others : actionsAt hooks 1 = [] ∧ actionsAt hooks 2 = [] ∧ actionsAt hooks 4 = [] ∧ actionsAt hooks 6 = [])
    (s : State) :
    Did ((stepPlaces s.config.hookOrder 0 (eventsOf (actionsAt hooks 0)) (eventsOf (actionsAt hooks 3))
        (eventsOf (actionsAt hooks 5))).map (placeAt s.pc.kind))
      (subCycleTrace s.config.hookOrder s.config.tunit (hookEvents s 0 (actionsAt hooks 0))
        (hookEvents s (samplesOf (actionsAt hooks 0)) (actionsAt hooks 3))
        (hookEvents s (samplesOf (actionsAt hooks 0) + samplesOf (actionsAt hooks 3)) (actionsAt hooks 5)))
      (samplesOf (actionsInOrder hooks)) s (runSubCycle hooks s) := by
  obtain ⟨one, two, four, six⟩ := others
  have did := runSubCycle_did once s
  have places : slotsPlaces s.config.hookOrder hooks phases = stepPlaces s.config.hookOrder 0
      (eventsOf (actionsAt hooks 0)) (eventsOf (actionsAt hooks 3)) (eventsOf (actionsAt hooks 5)) := by
    simp [slotsPlaces, stepPlaces, phases, one, two, four, six, eventsOf]
  have trace : slotsTrace s hooks 0 phases =
      subCycleTrace s.config.hookOrder s.config.tunit (hookEvents s 0 (actionsAt hooks 0))
        (hookEvents s (samplesOf (actionsAt hooks 0)) (actionsAt hooks 3))
        (hookEvents s (samplesOf (actionsAt hooks 0) + samplesOf (actionsAt hooks 3)) (actionsAt hooks 5)) := by
    cases order : s.config.hookOrder <;>
      simp [slotsTrace, subCycleTrace, phases, order, one, two, four, six, hookEvents, edgeEvents, samplesOf]
  rw [places, trace] at did
  exact did

/-- A sub-cycle without hooks is the plain one, under either HOOK_ORDER. -/
theorem subCycleTrace_nil (order : HookOrder) (d : Nat) : subCycleTrace order d [] [] [] = plainTrace d := by
  cases order <;> rfl

theorem plainSubCycle_did (s : State) :
    Did ((stepPlaces s.config.hookOrder 0 0 0 0).map (placeAt s.pc.kind)) (plainTrace s.config.tunit) 0 s
      (runSubCycle [] s) := by
  rw [← subCycleTrace_nil s.config.hookOrder]
  exact hookedSubCycle_did (hooks := []) List.nodup_nil ⟨rfl, rfl, rfl, rfl⟩ s

theorem chipSelectSubCycle_did (s : State) :
    Did ((stepPlaces s.config.hookOrder 0 0 1 0).map (placeAt s.pc.kind))
      (subCycleTrace s.config.hookOrder s.config.tunit [] [enableTo Level.A] []) 0 s (runSubCycle chipSelectHooks s) :=
  hookedSubCycle_did (hooks := chipSelectHooks) (by decide) ⟨rfl, rfl, rfl, rfl⟩ s

theorem dataHighSubCycle_did (s : State) :
    Did ((stepPlaces s.config.hookOrder 0 2 0 1).map (placeAt s.pc.kind))
      (subCycleTrace s.config.hookOrder s.config.tunit [.wrNib 0, enableTo Level.N] [] [.rdNib (answerAt s 0)]) 1 s
      (runSubCycle dataHighHooks s) :=
  hookedSubCycle_did (hooks := dataHighHooks) (by decide) ⟨rfl, rfl, rfl, rfl⟩ s

theorem dataLowSubCycle_did (s : State) :
    Did ((stepPlaces s.config.hookOrder 0 0 0 1).map (placeAt s.pc.kind))
      (subCycleTrace s.config.hookOrder s.config.tunit [] [] [.rdNib (answerAt s 0)]) 1 s
      (runSubCycle dataLowHooks s) :=
  hookedSubCycle_did (hooks := dataLowHooks) (by decide) ⟨rfl, rfl, rfl, rfl⟩ s

/-! ### What the sub-cycles leave in the registers and of the driver -/

/-- The operand registers and the driver are unchanged. -/
abbrev SameOperands (s t : State) : Prop := (t.cs = s.cs ∧ t.addr = s.addr) ∧ SameDriver s t

theorem SameOperands.trans {s t u : State} (a : SameOperands s t) (b : SameOperands t u) : SameOperands s u := by
  obtain ⟨⟨cs, addr⟩, counter, buffer⟩ := a
  obtain ⟨⟨cs', addr'⟩, counter', buffer'⟩ := b
  exact ⟨⟨cs'.trans cs, addr'.trans addr⟩, counter'.trans counter, buffer'.trans buffer⟩

theorem runSubCycle_sameOperands {hooks : Hooks} (once : (hooks.map Prod.fst).Nodup)
    (noCs : ∀ c, csAfter (actionsInOrder hooks) c = c) (noAddr : ∀ a, addrAfter (actionsInOrder hooks) a = a)
    (s : State) : SameOperands s (runSubCycle hooks s) := by
  obtain ⟨cs, addr, -⟩ := runSubCycle_registers once s
  exact ⟨⟨cs.trans (noCs _), addr.trans (noAddr _)⟩, (runSubCycle_frame hooks s).1⟩

theorem plainSubCycle_kept (s : State) :
    (runSubCycle [] s).result = s.result ∧ SameOperands s (runSubCycle [] s) :=
  ⟨(runSubCycle_registers (hooks := []) List.nodup_nil s).result,
    runSubCycle_sameOperands (hooks := []) List.nodup_nil (fun _ => rfl) (fun _ => rfl) s⟩

theorem chipSelectSubCycle_kept (s : State) :
    (runSubCycle chipSelectHooks s).result = s.result ∧ SameOperands s (runSubCycle chipSelectHooks s) :=
  ⟨(runSubCycle_registers (hooks := chipSelectHooks) (by decide) s).result,
    runSubCycle_sameOperands (by decide) (fun _ => rfl) (fun _ => rfl) s⟩

theorem dataHighSubCycle_kept (s : State) :
    (runSubCycle dataHighHooks s).result = some (answerAt s 0 ++ (0 : Nibble)) ∧
      SameOperands s (runSubCycle dataHighHooks s) :=
  ⟨(runSubCycle_registers (hooks := dataHighHooks) (by decide) s).result,
    runSubCycle_sameOperands (by decide) (fun _ => rfl) (fun _ => rfl) s⟩

theorem dataLowSubCycle_kept (s : State) :
    (runSubCycle dataLowHooks s).result = some (readResult s ||| (answerAt s 0).setWidth 8) ∧
      SameOperands s (runSubCycle dataLowHooks s) :=
  ⟨(runSubCycle_registers (hooks := dataLowHooks) (by decide) s).result,
    runSubCycle_sameOperands (by decide) (fun _ => rfl) (fun _ => rfl) s⟩

/-! ### The entry actions -/

theorem enterKind_did (k : CycleKind) (s : State) : Did [] [] 0 s (enterKind k s) :=
  .still ⟨rfl, rfl, rfl, rfl, rfl, rfl, rfl, rfl⟩

/-- An entry action that drives a line stands at phase 0 and the stage `entry` (43_cycle_engine.md R119). -/
theorem entryLine_did (l : OutLine) (v : Level) {s : State} (phase : s.pc.phase = 0) :
    Did [placeAt s.pc.kind (0, .entry)] [.set l v] 0 s (entryLine l v s) := by
  have ran := setLine_ran l v (enterStage .entry s)
  exact .of_ran (ps := [(0, .entry)]) ⟨ran.1, ran.2, ran.3, ran.4, ran.5, ran.6, ran.7⟩
    (.one (setLine_log l v _) (by simp [placeAt, phase])) rfl rfl

/-- An entry action that drives the output nibble stands there too. -/
theorem entryNibble_did (n : Nibble) {s : State} (phase : s.pc.phase = 0) :
    Did [placeAt s.pc.kind (0, .entry)] [.wrNib n] 0 s (entryNibble n s) := by
  have ran := writeNibble_ran n (enterStage .entry s)
  exact .of_ran (ps := [(0, .entry)]) ⟨ran.1, ran.2, ran.3, ran.4, ran.5, ran.6, ran.7⟩
    (.one (writeNibble_log n _) (by simp [placeAt, phase])) rfl rfl

/-! ### The nine steps -/

theorem initStep_did (s : State) :
    Did (kindPlaces s.config.hookOrder .init) ([syncTo Level.A] ++ plainTrace s.config.tunit) 0 s (initStep s) :=
  (enterKind_did .init s).trans ((entryLine_did .sync Level.A rfl).trans (plainSubCycle_did _))

theorem addrLowStep_did (s : State) :
    Did (kindPlaces s.config.hookOrder .addrLow)
      ([syncTo Level.N, .wrNib (lowNibble (readAddr s))] ++ plainTrace s.config.tunit) 0 s (addrLowStep s) :=
  (enterKind_did .addrLow s).trans ((entryLine_did .sync Level.N rfl).trans
    ((entryNibble_did (lowNibble (readAddr s)) rfl).trans (plainSubCycle_did _)))

theorem addrHighStep_did (s : State) :
    Did (kindPlaces s.config.hookOrder .addrHigh)
      ([.wrNib (highNibble (readAddr s))] ++ plainTrace s.config.tunit) 0 s (addrHighStep s) :=
  (enterKind_did .addrHigh s).trans ((entryNibble_did (highNibble (readAddr s)) rfl).trans (plainSubCycle_did _))

theorem chipSelectStep_did (s : State) :
    Did (kindPlaces s.config.hookOrder .chipSelect)
      ([.wrNib (chipNibble (readCs s))] ++
        subCycleTrace s.config.hookOrder s.config.tunit [] [enableTo Level.A] []) 0 s (chipSelectStep s) :=
  (enterKind_did .chipSelect s).trans ((entryNibble_did (chipNibble (readCs s)) rfl).trans (chipSelectSubCycle_did _))

theorem dataHighStep_did (s : State) :
    Did (kindPlaces s.config.hookOrder .dataHigh)
      (subCycleTrace s.config.hookOrder s.config.tunit [.wrNib 0, enableTo Level.N] [] [.rdNib (answerAt s 0)]) 1 s
      (dataHighStep s) :=
  (enterKind_did .dataHigh s).trans (dataHighSubCycle_did _)

theorem dataLowStep_did (s : State) :
    Did (kindPlaces s.config.hookOrder .dataLow)
      (subCycleTrace s.config.hookOrder s.config.tunit [] [] [.rdNib (answerAt s 0)]) 1 s (dataLowStep s) :=
  (enterKind_did .dataLow s).trans (dataLowSubCycle_did _)

theorem trail1Step_did (s : State) :
    Did (kindPlaces s.config.hookOrder .trail1) (plainTrace s.config.tunit) 0 s (trail1Step s) :=
  (enterKind_did .trail1 s).trans (plainSubCycle_did _)

theorem trail2Step_did (s : State) :
    Did (kindPlaces s.config.hookOrder .trail2) (plainTrace s.config.tunit) 0 s (trail2Step s) :=
  (enterKind_did .trail2 s).trans (plainSubCycle_did _)

theorem trail3Step_did (s : State) :
    Did (kindPlaces s.config.hookOrder .trail3) ([syncTo Level.A] ++ plainTrace s.config.tunit) 0 s (trail3Step s) :=
  (enterKind_did .trail3 s).trans ((entryLine_did .sync Level.A rfl).trans (plainSubCycle_did _))

theorem initStep_kept (s : State) : (initStep s).result = s.result ∧ SameOperands s (initStep s) :=
  plainSubCycle_kept (entryLine .sync Level.A (enterKind .init s))

theorem addrLowStep_kept (s : State) : (addrLowStep s).result = s.result ∧ SameOperands s (addrLowStep s) :=
  plainSubCycle_kept (entryNibble (lowNibble (readAddr s)) (entryLine .sync Level.N (enterKind .addrLow s)))

theorem addrHighStep_kept (s : State) : (addrHighStep s).result = s.result ∧ SameOperands s (addrHighStep s) :=
  plainSubCycle_kept (entryNibble (highNibble (readAddr s)) (enterKind .addrHigh s))

theorem chipSelectStep_kept (s : State) : (chipSelectStep s).result = s.result ∧ SameOperands s (chipSelectStep s) :=
  chipSelectSubCycle_kept (entryNibble (chipNibble (readCs s)) (enterKind .chipSelect s))

theorem dataHighStep_kept (s : State) :
    (dataHighStep s).result = some (answerAt s 0 ++ (0 : Nibble)) ∧ SameOperands s (dataHighStep s) :=
  dataHighSubCycle_kept (enterKind .dataHigh s)

theorem dataLowStep_kept (s : State) :
    (dataLowStep s).result = some (readResult s ||| (answerAt s 0).setWidth 8) ∧ SameOperands s (dataLowStep s) :=
  dataLowSubCycle_kept (enterKind .dataLow s)

theorem trail1Step_kept (s : State) : (trail1Step s).result = s.result ∧ SameOperands s (trail1Step s) :=
  plainSubCycle_kept (enterKind .trail1 s)

theorem trail2Step_kept (s : State) : (trail2Step s).result = s.result ∧ SameOperands s (trail2Step s) :=
  plainSubCycle_kept (enterKind .trail2 s)

theorem trail3Step_kept (s : State) : (trail3Step s).result = s.result ∧ SameOperands s (trail3Step s) :=
  plainSubCycle_kept (entryLine .sync Level.A (enterKind .trail3 s))

/-! ### The nibbles on the lines -/

theorem lowNibble_eq (a : Byte) : lowNibble a = BitVec.ofNat 4 (a.toNat % 16) := by
  apply BitVec.eq_of_toNat_eq
  simp [lowNibble]

theorem highNibble_eq (a : Byte) : highNibble a = BitVec.ofNat 4 (a.toNat / 16) := by
  apply BitVec.eq_of_toNat_eq
  simp [highNibble, Nat.shiftRight_eq_div_pow]

/-- The chip-select nibble carries the three low bits of the number, and DataOut3 at 0 (30_encoding.md R53). -/
theorem getLsbD_chipNibble (c i : Nat) (below : i < 4) :
    (chipNibble c).getLsbD i = (decide (i < 3) && c.testBit i) := by
  have mod : (c % 8).testBit i = (decide (i < 3) && c.testBit i) := Nat.testBit_mod_two_pow c 3 i
  rw [chipNibble, BitVec.getLsbD_ofNat, mod, decide_eq_true below, Bool.true_and]

/-- The chip select on the four lines. -/
theorem outNibble_chipNibble (ls : OutLines (Option Level)) (c : Nat) :
    outNibble ls (chipNibble c) =
      { ls with
        dataOut0 := some (c.testBit 0), dataOut1 := some (c.testBit 1), dataOut2 := some (c.testBit 2),
        dataOut3 := some false } := by
  simp only [outNibble, getLsbD_chipNibble, Nat.reduceLT, decide_true, decide_false, Bool.true_and, Bool.false_and]

/-! ### Obligations on the cycle steps -/

/-- Settles O31: S+ and the plain sub-cycle, which writes the clocks alone. -/
theorem initAssertsSync : Obligations.InitAssertsSync := by
  intro s
  obtain ⟨result, registers, driver⟩ := initStep_kept s
  exact ⟨rfl, _, rfl, result, sequencerDone_of_did (i := .init) (initStep_did s) rfl rfl registers driver⟩

/-- Settles O32: the nibble is the low one of what `x[addr]` reads as. -/
theorem addrlowDrivesTheLowNibble : Obligations.AddrlowDrivesTheLowNibble := by
  intro s
  obtain ⟨result, registers, driver⟩ := addrLowStep_kept s
  refine ⟨rfl, lowNibble (readAddr s), _, fun a written => ?_, rfl, result,
    sequencerDone_of_did (i := .addrlow) (addrLowStep_did s) rfl rfl registers driver⟩
  rw [readAddr, written, lowNibble_eq]
  rfl

/-- Settles O33: the nibble is the high one of what `x[addr]` reads as. -/
theorem addrhighDrivesTheHighNibble : Obligations.AddrhighDrivesTheHighNibble := by
  intro s
  obtain ⟨result, registers, driver⟩ := addrHighStep_kept s
  refine ⟨rfl, highNibble (readAddr s), _, fun a written => ?_, rfl, result,
    sequencerDone_of_did (i := .addrhigh) (addrHighStep_did s) rfl rfl registers driver⟩
  rw [readAddr, written, highNibble_eq]
  rfl

/-- Settles O34: the nibble carries the low three bits of what `x[cs]` reads as, under either order. -/
theorem chipselDrivesCsMod8 : Obligations.ChipselDrivesCsMod8 := by
  intro s
  obtain ⟨result, registers, driver⟩ := chipSelectStep_kept s
  refine ⟨rfl, readCs s, _, fun n written => ?_, rfl, result,
    sequencerDone_of_did (i := .chipsel) (chipSelectStep_did s) ?_ ?_ registers driver⟩
  · rw [readCs, written]
    rfl
  · show replay (subCycleTrace _ _ [] [enableTo Level.A] []) (outNibble s.lines (chipNibble (readCs s))) = _
    rw [outNibble_chipNibble]
    cases s.config.hookOrder <;> rfl
  · cases s.config.hookOrder <;> rfl

/-- Settles O35: the hooks of slot 0 clear the lines and the hook of slot 5 samples, under either order. -/
theorem datahighAssignsTheHighNibble : Obligations.DatahighAssignsTheHighNibble := by
  intro s
  obtain ⟨result, registers, driver⟩ := dataHighStep_kept s
  refine ⟨rfl, _, rfl, result, sequencerDone_of_did (i := .datahigh) (dataHighStep_did s) ?_ ?_ registers driver⟩
  · cases s.config.hookOrder <;> rfl
  · cases s.config.hookOrder <;> rfl

/-- Settles O36: the byte it is ORed into is what `x[result]` reads as. -/
theorem datalowOrsTheLowNibble : Obligations.DatalowOrsTheLowNibble := by
  intro s
  obtain ⟨result, registers, driver⟩ := dataLowStep_kept s
  refine ⟨rfl, readResult s, _, fun b written => ?_, rfl, result,
    sequencerDone_of_did (i := .datalow) (dataLowStep_did s) ?_ ?_ registers driver⟩
  · rw [readResult, written]
    rfl
  · cases s.config.hookOrder <;> rfl
  · cases s.config.hookOrder <;> rfl

/-- Settles O37: the two plain steps and the one that asserts Sync first. -/
theorem trailStepsRun : Obligations.TrailStepsRun := by
  intro s
  obtain ⟨result1, registers1, driver1⟩ := trail1Step_kept s
  obtain ⟨result2, registers2, driver2⟩ := trail2Step_kept s
  obtain ⟨result3, registers3, driver3⟩ := trail3Step_kept s
  exact ⟨rfl, rfl, rfl,
    ⟨_, rfl, result1, sequencerDone_of_did (i := .trail1) (trail1Step_did s) rfl rfl registers1 driver1⟩,
    ⟨_, rfl, result2, sequencerDone_of_did (i := .trail2) (trail2Step_did s) rfl rfl registers2 driver2⟩,
    ⟨_, rfl, result3, sequencerDone_of_did (i := .trail3) (trail3Step_did s) rfl rfl registers3 driver3⟩⟩

/-- Settles O29: SUBCYC without hooks is the plain sub-cycle. -/
theorem plainSubcycTrace : Obligations.PlainSubcycTrace := by
  intro s
  obtain ⟨result, registers, driver⟩ := plainSubCycle_kept s
  exact ⟨_, rfl, result, sequencerDone_of_did (i := .subcyc []) (plainSubCycle_did s) rfl rfl registers driver⟩

/-- Settles O13: INIT writes Sync and the clocks alone (O31), and at reset nothing is written. -/
theorem firstInitLeavesDataUnwritten : Obligations.FirstInitLeavesDataUnwritten := by
  obtain ⟨-, t, run, result, -, lines, -, -, cs, addr, -⟩ := initAssertsSync State.reset
  exact ⟨t, run, lines, cs, addr, result⟩

end Sys2Proof.Machine
end

section
/-! The transaction (43_cycle_engine.md R120 to R123): its three parts, its trace and positions, and what it returns. -/

namespace Sys2Proof.Machine

open Sys2Proof.Safety

/-- Completion performs nothing. -/
theorem Did.complete {ps : List Pc} {es : List Event} {n : Nat} {s t : State} (a : Did ps es n s t) (c : Completion) :
    Did ps es n s (complete c t) :=
  ⟨⟨a.events, a.lines, a.answers, a.sampleCount, a.delays, a.delayCount, a.now⟩, a.config, a.placed, a.time⟩

/-! ### The parts of a transaction -/

/-- The addressing steps: AddrLow, AddrHigh, ChipSelect. -/
def addressing (s : State) : State := chipSelectStep (addrHighStep (addrLowStep s))

/-- The sampling steps: DataHigh, DataLow. -/
def sampling (s : State) : State := dataLowStep (dataHighStep s)

/-- The trailing steps: Trail1, Trail2, Trail3. -/
def trailing (s : State) : State := trail3Step (trail2Step (trail1Step s))

/-- A transaction loads its operands, goes through the three parts and ends Idle (43_cycle_engine.md R120). -/
theorem readWord_eq (cs : Nat) (a : Byte) (s : State) :
    readWord cs a s = goIdle (trailing (sampling (addressing (writeAddr a (writeCs cs s))))) := rfl


theorem addressing_did (s : State) :
    Did (kindPlaces s.config.hookOrder .addrLow ++ kindPlaces s.config.hookOrder .addrHigh ++
        kindPlaces s.config.hookOrder .chipSelect)
      (([syncTo Level.N, .wrNib (lowNibble (readAddr s))] ++ plainTrace s.config.tunit) ++
        ([.wrNib (highNibble (readAddr s))] ++ plainTrace s.config.tunit) ++
        ([.wrNib (chipNibble (readCs s))] ++
          subCycleTrace s.config.hookOrder s.config.tunit [] [enableTo Level.A] [])) 0 s
      (addressing s) := by
  have low := addrLowStep_did s
  obtain ⟨-, ⟨lowCs, lowAddr⟩, -⟩ := addrLowStep_kept s
  have high := addrHighStep_did (addrLowStep s)
  obtain ⟨-, ⟨highCs, -⟩, -⟩ := addrHighStep_kept (addrLowStep s)
  have select := chipSelectStep_did (addrHighStep (addrLowStep s))
  rw [readCs, highCs, lowCs, ← readCs, high.config, low.config] at select
  rw [readAddr, lowAddr, ← readAddr, low.config] at high
  exact (low.trans high).trans select

theorem addressing_kept (s : State) :
    SameOperands s (addressing s) :=
  ((addrLowStep_kept s).2.trans (addrHighStep_kept _).2).trans (chipSelectStep_kept _).2

theorem sampling_did (s : State) :
    Did (kindPlaces s.config.hookOrder .dataHigh ++ kindPlaces s.config.hookOrder .dataLow)
      (subCycleTrace s.config.hookOrder s.config.tunit [.wrNib 0, enableTo Level.N] [] [.rdNib (answerAt s 0)] ++
        subCycleTrace s.config.hookOrder s.config.tunit [] [] [.rdNib (answerAt s 1)]) 2 s
      (sampling s) := by
  have high := dataHighStep_did s
  have low := dataLowStep_did (dataHighStep s)
  rw [high.answerAt, high.config] at low
  exact high.trans low

/-- The two samples make the byte (30_encoding.md R54). -/
theorem sampling_kept (s : State) :
    (sampling s).result = some (answerAt s 0 ++ answerAt s 1) ∧
      SameOperands s (sampling s) := by
  obtain ⟨high, highKept⟩ := dataHighStep_kept s
  obtain ⟨low, lowKept⟩ := dataLowStep_kept (dataHighStep s)
  refine ⟨?_, highKept.trans lowKept⟩
  rw [sampling, low, readResult, high, (dataHighStep_did s).answerAt, ← highSample_eq_append]
  exact congrArg some (orLowSample_highSample _ _)

theorem trailing_did (s : State) :
    Did (kindPlaces s.config.hookOrder .trail1 ++ kindPlaces s.config.hookOrder .trail2 ++
        kindPlaces s.config.hookOrder .trail3)
      (plainTrace s.config.tunit ++ plainTrace s.config.tunit ++ ([syncTo Level.A] ++ plainTrace s.config.tunit)) 0 s
      (trailing s) := by
  have one := trail1Step_did s
  have two := trail2Step_did (trail1Step s)
  have three := trail3Step_did (trail2Step (trail1Step s))
  rw [two.config, one.config] at three
  rw [one.config] at two
  exact (one.trans two).trans three

theorem trailing_kept (s : State) :
    (trailing s).result = s.result ∧
      SameOperands s (trailing s) := by
  obtain ⟨one, oneKept⟩ := trail1Step_kept s
  obtain ⟨two, twoKept⟩ := trail2Step_kept (trail1Step s)
  obtain ⟨three, threeKept⟩ := trail3Step_kept (trail2Step (trail1Step s))
  exact ⟨three.trans (two.trans one), (oneKept.trans twoKept).trans threeKept⟩

/-! ### The transaction -/

/-- A transaction performs the trace of 43_cycle_engine.md R121 at the places of its eight kinds, with two samples. -/
theorem readWord_did (cs : Nat) (a : Byte) (s : State) :
    Did (wordPlaces s.config.hookOrder)
      (wordTrace s.config.hookOrder s.config.tunit (lowNibble a) (highNibble a) (chipNibble cs) (answerAt s 0)
        (answerAt s 1)) 2 s (readWord cs a s) := by
  rw [readWord_eq]
  set loaded := writeAddr a (writeCs cs s)
  have load : Did [] [] 0 s loaded := .still ⟨rfl, rfl, rfl, rfl, rfl, rfl, rfl, rfl⟩
  have operands : readAddr loaded = a ∧ readCs loaded = cs := ⟨rfl, rfl⟩
  have addressed := addressing_did loaded
  rw [operands.1, operands.2, load.config] at addressed
  have addressed := load.trans addressed
  have sampled := sampling_did (addressing loaded)
  rw [addressed.config, addressed.answerAt, addressed.answerAt] at sampled
  have sampled := addressed.trans sampled
  have trailed := trailing_did (sampling (addressing loaded))
  rw [sampled.config] at trailed
  have idle (u : State) : Did [] [] 0 u (goIdle u) := .still ⟨rfl, rfl, rfl, rfl, rfl, rfl, rfl, rfl⟩
  have did := (sampled.trans trailed).trans (idle _)
  convert did using 1
  · simp [wordPlaces]
  · simp [wordTrace]

/-- A transaction leaves its byte in the result and its operands in their registers. -/
theorem readWord_kept (cs : Nat) (a : Byte) (s : State) :
    (readWord cs a s).result = some (answerAt s 0 ++ answerAt s 1) ∧
      ((readWord cs a s).cs = some cs ∧ (readWord cs a s).addr = some a) ∧ SameDriver s (readWord cs a s) := by
  rw [readWord_eq]
  set loaded := writeAddr a (writeCs cs s)
  have addressed := addressing_kept loaded
  obtain ⟨byte, sampled⟩ := sampling_kept (addressing loaded)
  obtain ⟨result, trailed⟩ := trailing_kept (sampling (addressing loaded))
  rw [(addressing_did loaded).answerAt, (addressing_did loaded).answerAt] at byte
  obtain ⟨operands, driver⟩ := (addressed.trans sampled).trans trailed
  generalize trailing (sampling (addressing loaded)) = ended at result operands driver
  exact ⟨result.trans byte, operands, driver⟩

/-! ### The trace of a transaction, evaluated -/

section

variable (order : HookOrder) (d : Nat) (lo hi csn h l : Nibble)

/-- Whatever is counted, a sub-cycle has it in its hooks and in its plain part, under either order. -/
theorem countP_subCycleTrace (p : Event → Bool) (h0 h3 h5 : List Event) :
    (subCycleTrace order d h0 h3 h5).countP p =
      h0.countP p + h3.countP p + h5.countP p + (plainTrace d).countP p := by
  cases order <;>
    simp only [subCycleTrace, plainTrace, List.countP_append, List.countP_cons, List.countP_nil] <;> omega

/-- Whatever is counted, a transaction has it in its ten port events and in its eight plain sub-cycles. -/
theorem countP_wordTrace (p : Event → Bool) :
    (wordTrace order d lo hi csn h l).countP p =
      [syncTo Level.N, .wrNib lo, .wrNib hi, .wrNib csn, enableTo Level.A, .wrNib 0, enableTo Level.N, .rdNib h,
        .rdNib l, syncTo Level.A].countP p + 8 * (plainTrace d).countP p := by
  simp only [wordTrace, List.countP_append, countP_subCycleTrace, List.countP_cons, List.countP_nil]
  omega

theorem wordTrace_length : (wordTrace order d lo hi csn h l).length = 98 := by
  rw [← List.countP_true]
  exact countP_wordTrace ..

theorem wordTrace_countP_isDwell : (wordTrace order d lo hi csn h l).countP isDwell = 56 := countP_wordTrace ..

/-- A transaction leaves the lines at rest, wherever they were (10_state.md R24). -/
theorem replay_wordTrace (ls : OutLines (Option Level)) : replay (wordTrace order d lo hi csn h l) ls = restLines := by
  cases order <;> rfl

end

/-! ### Obligations on the transaction -/

theorem exec_readword (cs : Nat) (a : Byte) (s : State) :
    exec (.readword cs a) s = .next (complete (.byte (answerAt s 0 ++ answerAt s 1)) (readWord cs a s)) := by
  have byte : readResult (readWord cs a s) = answerAt s 0 ++ answerAt s 1 := by
    rw [readResult, (readWord_kept cs a s).1]
    rfl
  rw [← byte]
  rfl

/-- Settles O38: the trace of the transaction, its length and its dwells. -/
theorem readwordTrace : Obligations.ReadwordTrace := by
  intro cs a s
  have events := ((readWord_did cs a s).complete (.byte (answerAt s 0 ++ answerAt s 1))).events
  rw [lowNibble_eq, highNibble_eq] at events
  exact ⟨_, _, exec_readword cs a s, events, rfl, wordTrace_length .., wordTrace_countP_isDwell ..⟩

/-- Settles O39: the samples in the result, the operands in their registers, the lines at rest, and 56 dwells. -/
theorem readwordReturnsTheSamples : Obligations.ReadwordReturnsTheSamples := by
  intro cs a s
  have did := readWord_did cs a s
  obtain ⟨result, ⟨csKept, addrKept⟩, driver⟩ := readWord_kept cs a s
  have mask := (kept_sameMask s).readWord cs a s ⟨rfl, rfl, rfl⟩
  have platform := (kept_samePlatform s).readWord cs a s ⟨rfl, rfl⟩
  have time := did.time
  have delays := did.delays
  have delayCount := did.delayCount
  have lines := did.lines
  rw [wordTrace_countP_isDwell] at time
  rw [wordTrace_length, wordTrace_countP_isDwell] at delays delayCount
  rw [replay_wordTrace] at lines
  refine ⟨rfl, _, exec_readword cs a s, ?_⟩
  generalize readWord cs a s = t at *
  exact ⟨⟨rfl, rfl, rfl⟩, result, csKept, addrKept, lines, time, driver, mask, platform, did.answers, did.sampleCount,
    delays, delayCount⟩

/-- What a transaction added to the trace, and where. -/
theorem readword_performed {cs : Nat} {a : Byte} {s t : State} (run : exec (.readword cs a) s = .next t) :
    Performed s t (wordTrace s.config.hookOrder s.config.tunit (lowNibble a) (highNibble a) (chipNibble cs)
        (answerAt s 0) (answerAt s 1)) ∧
      newPlaces s t = wordPlaces s.config.hookOrder := by
  rw [exec_readword] at run
  obtain rfl := Host.Outcome.next.inj run
  have did := (readWord_did cs a s).complete (.byte (answerAt s 0 ++ answerAt s 1))
  exact ⟨did.events, did.newPlaces⟩

/-- Settles O40: the positions of the transaction. -/
theorem readwordGoesThroughTheKinds : Obligations.ReadwordGoesThroughTheKinds := fun _ _ _ _ run =>
  (readword_performed run).2

end Sys2Proof.Machine
end

section
/-! What stands on the lines along a trace (42_phase_sequencer.md R99; 10_state.md R22; 90_conflicts.md C8): the clock
waveform, and the lines at the samples of a transaction. -/

namespace Sys2Proof.Machine

open Sys2Proof.Safety

/-! ### A property of every event, the dwells and the lines before it -/

/-- `P` holds of every event of a list, given how many dwells and which line levels stand before the event, from `n`
dwells and the levels `ls` on. -/
def Along (P : Nat → OutLines (Option Level) → Event → Prop) : Nat → OutLines (Option Level) → List Event → Prop
  | _, _, [] => True
  | n, ls, e :: later => P n ls e ∧ Along P (n + [e].countP isDwell) (applyEvent ls e) later

theorem along_append {P : Nat → OutLines (Option Level) → Event → Prop} {n : Nat} {ls : OutLines (Option Level)}
    {es fs : List Event} :
    Along P n ls (es ++ fs) ↔ Along P n ls es ∧ Along P (n + es.countP isDwell) (replay es ls) fs := by
  induction es generalizing n ls with
  | nil => simp [Along, replay]
  | cons e later ih =>
    have count : (e :: later).countP isDwell = [e].countP isDwell + later.countP isDwell :=
      List.countP_append (l₁ := [e])
    rw [List.cons_append, Along, Along, ih, and_assoc, count, Nat.add_assoc]
    rfl

/-- What holds along a list holds at each of its events. -/
theorem Along.at {P : Nat → OutLines (Option Level) → Event → Prop} {n : Nat} {ls : OutLines (Option Level)}
    {before after : List Event} {e : Event} (h : Along P n ls (before ++ e :: after)) :
    P (n + before.countP isDwell) (replay before ls) e := by
  obtain ⟨-, here, -⟩ := along_append.mp h
  exact here

/-- What is performed on the way from one state to another is one list. -/
theorem performed_unique {s t : State} {es fs : List Event} (h : Performed s t es) (g : Performed s t fs) : es = fs :=
  List.append_cancel_left (h.symm.trans g)

/-! ### The clock waveform -/

/-- What the clock lines show at a dwell: the dwell of slot `p` is the `p`-th of its sub-cycle, counted from 0
(42_phase_sequencer.md R99). -/
def WaveAt (unit n : Nat) (ls : OutLines (Option Level)) (e : Event) : Prop :=
  ∀ d, e = .dwell d → d = unit ∧ ls.clk1 = some (decide (n % 7 ∈ [1, 2])) ∧ ls.clk2 = some (decide (n % 7 ∈ [5, 6]))

section

variable (order : HookOrder) (d : Nat) (lo hi csn h l : Nibble) {ls : OutLines (Option Level)}

/-- The trace of a transaction, event by event: only the edges of the slots write the clocks, so neither the nibbles nor
the order of hook and edge matter. -/
theorem waveform_wordTrace (low : ls.clk1 = some Level.N) :
    Along (WaveAt d) 0 ls (wordTrace order d lo hi csn h l) := by
  cases order <;>
    simp [wordTrace, subCycleTrace, plainTrace, Along, WaveAt, applyEvent, outSet, outNibble, isDwell, low]

/-! ### The samples -/

/-- ChipMatrixEnable is negated and the output nibble is 0 (90_conflicts.md C8). -/
def Cleared (ls : OutLines (Option Level)) : Prop :=
  ls.chipMatrixEnable = some Level.N ∧
    ∀ l ∈ [OutLine.dataOut0, .dataOut1, .dataOut2, .dataOut3], outGet ls l = some false

/-- If the event is a sample, the lines are cleared. -/
def SampledAt (_ : Nat) (ls : OutLines (Option Level)) (e : Event) : Prop := ∀ v, e = .rdNib v → Cleared ls

theorem sampled_of_none {es : List Event} (unsampled : ∀ v, .rdNib v ∉ es) (n : Nat) :
    Along SampledAt n ls es := by
  induction es generalizing n ls with
  | nil => trivial
  | cons e later ih =>
    refine ⟨fun v sample => absurd (sample ▸ List.mem_cons_self) (unsampled v), ih (fun v mem => ?_) _⟩
    exact unsampled v (List.mem_cons_of_mem e mem)

/-- DataHigh clears the lines in slot 0, before its sample in slot 5, under either order. -/
theorem sampled_dataHigh (n : Nat) :
    Along SampledAt n ls (subCycleTrace order d [.wrNib 0, enableTo Level.N] [] [.rdNib h]) ∧
      Cleared (replay (subCycleTrace order d [.wrNib 0, enableTo Level.N] [] [.rdNib h]) ls) := by
  cases order <;> simp [subCycleTrace, Along, SampledAt, Cleared, replay, applyEvent, outSet, outNibble, outGet]

/-- DataLow finds them cleared and writes the clocks alone. -/
theorem sampled_dataLow (cleared : Cleared ls) (n : Nat) :
    Along SampledAt n ls (subCycleTrace order d [] [] [.rdNib l]) := by
  simp only [Cleared, List.forall_mem_cons, outGet] at cleared
  cases order <;> simp [subCycleTrace, Along, SampledAt, Cleared, applyEvent, outSet, outGet, cleared]

/-- Only DataHigh and DataLow sample. -/
theorem sampled_wordTrace : Along SampledAt 0 ls (wordTrace order d lo hi csn h l) := by
  have plain (n : Nat) {ls : OutLines (Option Level)} : Along SampledAt n ls (plainTrace d) :=
    sampled_of_none (by simp [plainTrace]) n
  have low := sampled_of_none (ls := ls) (es := [syncTo Level.N, .wrNib lo]) (by simp) 0
  simp only [wordTrace, along_append]
  refine ⟨⟨⟨⟨⟨⟨⟨⟨low, plain _⟩, sampled_of_none (by simp) _, plain _⟩, sampled_of_none (by simp) _, ?_⟩,
    (sampled_dataHigh ..).1⟩, sampled_dataLow _ _ _ ?_ _⟩, plain _⟩, plain _⟩, sampled_of_none (by simp) _, plain _⟩
  · exact sampled_of_none (by cases order <;> simp [subCycleTrace]) _
  · rw [replay, List.foldl_append]
    exact (sampled_dataHigh order d h 0).2

/-! ### The clocks do not overlap -/

/-- After the event the clocks are not both asserted. -/
def ApartAfter (_ : Nat) (ls : OutLines (Option Level)) (e : Event) : Prop := ¬ ClocksOverlap (applyEvent ls e)

/-- From levels with Clk1 not asserted, a transaction asserts each clock only while the other is negated. -/
theorem apart_wordTrace (low : ls.clk1 ≠ some Level.A) (n : Nat) :
    Along ApartAfter n ls (wordTrace order d lo hi csn h l) := by
  cases order <;>
    simp [wordTrace, subCycleTrace, plainTrace, Along, ApartAfter, applyEvent, outSet, outNibble, low]

/-- So does INIT. -/
theorem apart_initTrace (low : ls.clk1 ≠ some Level.A) (n : Nat) :
    Along ApartAfter n ls ([syncTo Level.A] ++ plainTrace d) := by
  simp [plainTrace, Along, ApartAfter, applyEvent, outSet, low]

end

/-- Where the clocks are apart at first and after every event of a trace, they are apart after each initial part. -/
theorem apart_of_initial_part {ls : OutLines (Option Level)} {before after : List Event} (start : ¬ ClocksOverlap ls)
    (apart : Along ApartAfter 0 ls (before ++ after)) : ¬ ClocksOverlap (replay before ls) := by
  obtain rfl | ⟨earlier, e, rfl⟩ := before.eq_nil_or_concat
  · exact start
  · rw [List.concat_append] at apart
    rw [List.concat_eq_append, replay, List.foldl_append]
    exact apart.at

/-! ### Obligations on the lines of a transaction -/

/-- Settles O41: every dwell of the transaction stands in the waveform. -/
theorem readwordClockWaveform : Obligations.ReadwordClockWaveform := by
  intro cs a s t before after d low run performed
  have trace := performed_unique performed (readword_performed run).1
  have wave := waveform_wordTrace s.config.hookOrder s.config.tunit (lowNibble a) (highNibble a) (chipNibble cs)
    (answerAt s 0) (answerAt s 1) low
  rw [← trace] at wave
  simpa only [Nat.zero_add] using wave.at d rfl

/-- Settles O43: every sample of the transaction finds the lines so. -/
theorem enableNegatedAtTheSamples : Obligations.EnableNegatedAtTheSamples := by
  intro cs a s t before after v run performed
  have trace := performed_unique performed (readword_performed run).1
  have sampled := sampled_wordTrace s.config.hookOrder s.config.tunit (lowNibble a) (highNibble a) (chipNibble cs)
    (answerAt s 0) (answerAt s 1) (ls := s.lines)
  rw [← trace] at sampled
  exact sampled.at v rfl

end Sys2Proof.Machine
end

section
/-! The scan (44_scan_driver.md R130, R131): INIT and then one transaction for each address, its trace, what it returns
and its counts. -/

namespace Sys2Proof.Machine

open Sys2Proof.Safety

/-! ### One turn of the address loop -/

/-- A turn performs its transaction and nothing else. -/
theorem scanWord_did (cs : Nat) (a : Byte) (s : State) :
    Did (wordPlaces s.config.hookOrder)
      (wordTrace s.config.hookOrder s.config.tunit (lowNibble a) (highNibble a) (chipNibble cs) (answerAt s 0)
        (answerAt s 1)) 2 s (scanWord cs a s) := by
  have counted : Did [] [] 0 s (setCounter a s) := .still ⟨rfl, rfl, rfl, rfl, rfl, rfl, rfl, rfl⟩
  have appended (u : State) : Did [] [] 0 u (appendResult u) := .still ⟨rfl, rfl, rfl, rfl, rfl, rfl, rfl, rfl⟩
  have word := readWord_did cs a (setCounter a s)
  rw [counted.config] at word
  have did := (counted.trans word).trans (appended _)
  simp only [List.nil_append, List.append_nil] at did
  exact did

/-- What a turn leaves: the counter and the operands of its transaction, the lines at rest, and its byte in the result and
at the end of the buffer. -/
structure Turned (cs : Nat) (a : Byte) (b : Byte) (s t : State) : Prop where
  counter : t.counter = some a
  cs : t.cs = some cs
  addr : t.addr = some a
  lines : t.lines = restLines
  result : t.result = some b
  buffer : t.buffer = s.buffer ++ [b]

theorem scanWord_turned (cs : Nat) (a : Byte) (s : State) :
    Turned cs a (answerAt s 0 ++ answerAt s 1) s (scanWord cs a s) := by
  have lines := (readWord_did cs a (setCounter a s)).lines
  rw [replay_wordTrace] at lines
  obtain ⟨result, ⟨csKept, addrKept⟩, counter, buffer⟩ := readWord_kept cs a (setCounter a s)
  have byte : readResult (readWord cs a (setCounter a s)) = answerAt s 0 ++ answerAt s 1 := by
    rw [readResult, result]
    rfl
  rw [scanWord]
  generalize readWord cs a (setCounter a s) = t at *
  exact ⟨counter, csKept, addrKept, lines, result, by rw [appendResult_buffer, buffer, byte]; rfl⟩

/-! ### The address loop -/

/-- The trace of the transactions at the addresses below `n`, two samples each (44_scan_driver.md R131). -/
def wordsTrace (order : HookOrder) (d cs : Nat) (s : State) (n : Nat) : List Event :=
  (List.range n).flatMap fun a =>
    wordTrace order d (BitVec.ofNat 4 (a % 16)) (BitVec.ofNat 4 (a / 16)) (BitVec.ofNat 4 (cs % 8))
      (answerAt s (2 * a)) (answerAt s (2 * a + 1))

/-- The bytes the samples of those transactions make. -/
def wordsBytes (s : State) (n : Nat) : List Byte :=
  (List.range n).map fun a => answerAt s (2 * a) ++ answerAt s (2 * a + 1)

theorem scanWords_range_succ (cs n : Nat) (s : State) :
    scanWords cs (List.range (n + 1)) s = scanWord cs (BitVec.ofNat 8 n) (scanWords cs (List.range n) s) := by
  rw [scanWords, List.range_succ, List.foldl_append, ← scanWords]
  rfl

theorem lowNibble_ofNat (n : Nat) : lowNibble (BitVec.ofNat 8 n) = BitVec.ofNat 4 (n % 16) := by
  rw [lowNibble_eq]
  apply BitVec.eq_of_toNat_eq
  simp only [BitVec.toNat_ofNat]
  omega

theorem highNibble_ofNat (n : Nat) : highNibble (BitVec.ofNat 8 n) = BitVec.ofNat 4 (n / 16) := by
  rw [highNibble_eq]
  apply BitVec.eq_of_toNat_eq
  simp only [BitVec.toNat_ofNat]
  omega

/-- The loop performs the transactions in ascending address order with nothing between them. -/
theorem scanWords_did (cs n : Nat) (s : State) :
    Did ((List.range n).flatMap fun _ => wordPlaces s.config.hookOrder)
      (wordsTrace s.config.hookOrder s.config.tunit cs s n) (2 * n) s (scanWords cs (List.range n) s) := by
  induction n with
  | zero => exact .still ⟨rfl, rfl, rfl, rfl, rfl, rfl, rfl, rfl⟩
  | succ n ih =>
    have word := scanWord_did cs (BitVec.ofNat 8 n) (scanWords cs (List.range n) s)
    rw [ih.config, ih.answerAt, ih.answerAt, lowNibble_ofNat, highNibble_ofNat] at word
    have both := ih.trans word
    rw [scanWords_range_succ, wordsTrace, List.range_succ, List.flatMap_append, List.flatMap_append,
      List.flatMap_singleton, List.flatMap_singleton]
    exact both

theorem scanWords_buffer (cs n : Nat) (s : State) :
    (scanWords cs (List.range n) s).buffer = s.buffer ++ wordsBytes s n := by
  induction n with
  | zero => exact (List.append_nil _).symm
  | succ n ih =>
    have buffer := (scanWord_turned cs (BitVec.ofNat 8 n) (scanWords cs (List.range n) s)).buffer
    have answers := (scanWords_did cs n s).answerAt
    rw [answers, answers, ih] at buffer
    have bytes : wordsBytes s (n + 1) = wordsBytes s n ++ [answerAt s (2 * n + 0) ++ answerAt s (2 * n + 1)] := by
      simp [wordsBytes, List.range_succ]
    rw [scanWords_range_succ, buffer, bytes, List.append_assoc]

/-! ### The scan -/

/-- The state at the start of the address loop: the buffer emptied and INIT done. -/
def scanStart (s : State) : State := goIdle (initStep (flushBuffer s))

theorem scanStart_did (s : State) :
    Did (kindPlaces s.config.hookOrder .init) ([syncTo Level.A] ++ plainTrace s.config.tunit) 0 s (scanStart s) := by
  have flushed : Did [] [] 0 s (flushBuffer s) := .still ⟨rfl, rfl, rfl, rfl, rfl, rfl, rfl, rfl⟩
  have idle (u : State) : Did [] [] 0 u (goIdle u) := .still ⟨rfl, rfl, rfl, rfl, rfl, rfl, rfl, rfl⟩
  have did := (flushed.trans (initStep_did (flushBuffer s))).trans (idle _)
  simp only [List.nil_append, List.append_nil] at did
  exact did

theorem scanStart_buffer (s : State) : (scanStart s).buffer = [] := by
  obtain ⟨-, -, -, buffer⟩ := initStep_kept (flushBuffer s)
  exact buffer

theorem scanTrace_eq (order : HookOrder) (d cs : Nat) (s : State) :
    scanTrace order d cs s = ([syncTo Level.A] ++ plainTrace d) ++ wordsTrace order d cs s 256 := rfl

theorem scannedBytes_eq (s : State) : scannedBytes s = wordsBytes s 256 := rfl

/-- The coming answers decide the transactions and their bytes. -/
theorem wordsTrace_congr {s t : State} (answers : ∀ k, answerAt t k = answerAt s k) (order : HookOrder) (d cs n : Nat) :
    wordsTrace order d cs t n = wordsTrace order d cs s n := by
  simp only [wordsTrace, answers]

theorem wordsBytes_congr {s t : State} (answers : ∀ k, answerAt t k = answerAt s k) (n : Nat) :
    wordsBytes t n = wordsBytes s n := by
  simp only [wordsBytes, answers]

theorem scanStart_answerAt (s : State) (k : Nat) : answerAt (scanStart s) k = answerAt s k := by
  rw [(scanStart_did s).answerAt, Nat.zero_add]

/-- The scan performs INIT and then the 256 transactions (44_scan_driver.md R131). -/
theorem scanLoop_did (cs : Nat) (s : State) :
    Did (kindPlaces s.config.hookOrder .init ++ (List.range 256).flatMap fun _ => wordPlaces s.config.hookOrder)
      (scanTrace s.config.hookOrder s.config.tunit cs s) 512 s (scanLoop cs s) := by
  have words := scanWords_did cs 256 (scanStart s)
  rw [(scanStart_did s).config, wordsTrace_congr (scanStart_answerAt s)] at words
  exact (scanStart_did s).trans words

theorem scanLoop_buffer (cs : Nat) (s : State) : (scanLoop cs s).buffer = scannedBytes s := by
  have bytes := scanWords_buffer cs 256 (scanStart s)
  rw [scanStart_buffer, List.nil_append, wordsBytes_congr (scanStart_answerAt s)] at bytes
  exact bytes

/-- The last turn of the loop is that of address 255. -/
theorem scanLoop_turned (cs : Nat) (s : State) :
    ∃ u, Turned cs 0xFF (answerAt s 510 ++ answerAt s 511) u (scanLoop cs s) := by
  have turned := scanWord_turned cs (BitVec.ofNat 8 255) (scanWords cs (List.range 255) (scanStart s))
  have answers := (scanWords_did cs 255 (scanStart s)).answerAt
  rw [answers, answers, scanStart_answerAt, scanStart_answerAt, ← scanWords_range_succ] at turned
  exact ⟨_, turned⟩

theorem exec_scan (cs : Nat) (s : State) :
    exec (.scan cs) s = .next (complete (.bytes (scannedBytes s)) (flushBuffer (scanLoop cs s))) := by
  rw [← scanLoop_buffer cs s]
  rfl

/-- What a scan performs, seen from its completion. -/
theorem exec_scan_did (cs : Nat) (s : State) :
    Did (kindPlaces s.config.hookOrder .init ++ (List.range 256).flatMap fun _ => wordPlaces s.config.hookOrder)
      (scanTrace s.config.hookOrder s.config.tunit cs s) 512 s
      (complete (.bytes (scannedBytes s)) (flushBuffer (scanLoop cs s))) := by
  have flushed (u : State) : Did [] [] 0 u (flushBuffer u) := .still ⟨rfl, rfl, rfl, rfl, rfl, rfl, rfl, rfl⟩
  have did := ((scanLoop_did cs s).trans (flushed _)).complete (.bytes (scannedBytes s))
  simp only [List.append_nil] at did
  exact did

/-! ### The counts of a scan -/

/-- As many as in each transaction, times the number of transactions. -/
theorem countP_wordsTrace (p : Event → Bool) {order : HookOrder} {d k : Nat}
    (each : ∀ lo hi csn h l, (wordTrace order d lo hi csn h l).countP p = k) (cs : Nat) (s : State) (n : Nat) :
    (wordsTrace order d cs s n).countP p = n * k := by
  rw [wordsTrace, List.countP_flatMap]
  simp [Function.comp_def, each]

/-- The count of a scan: that of INIT and that of its 256 transactions. -/
theorem countP_scanTrace (p : Event → Bool) {order : HookOrder} {d j k : Nat}
    (init : ([syncTo Level.A] ++ plainTrace d).countP p = j)
    (each : ∀ lo hi csn h l, (wordTrace order d lo hi csn h l).countP p = k) (cs : Nat) (s : State) :
    (scanTrace order d cs s).countP p = j + 256 * k := by
  rw [scanTrace_eq, List.countP_append, init, countP_wordsTrace p each]

theorem scanTrace_length (order : HookOrder) (d cs : Nat) (s : State) : (scanTrace order d cs s).length = 25100 := by
  rw [← List.countP_true, countP_scanTrace (j := 12) (k := 98) _ rfl fun _ _ _ _ _ => countP_wordTrace ..]

theorem scanTrace_countP_isDwell (order : HookOrder) (d cs : Nat) (s : State) :
    (scanTrace order d cs s).countP isDwell = 14343 := by
  rw [countP_scanTrace (j := 7) isDwell rfl (wordTrace_countP_isDwell order d)]

/-! ### Obligations on the scan -/

/-- Settles O44: the trace and the positions of the address loop after those of INIT. -/
theorem scanTraceIsInitAndWords : Obligations.ScanTraceIsInitAndWords := fun cs s =>
  ⟨_, exec_scan cs s, (exec_scan_did cs s).events, (exec_scan_did cs s).newPlaces⟩

/-- What the last turn left is there after the buffer was flushed and the scan completed. -/
theorem Turned.kept {cs : Nat} {a b : Byte} {s t : State} (h : Turned cs a b s t) (c : Completion) :
    (complete c (flushBuffer t)).lines = restLines ∧ (complete c (flushBuffer t)).cs = some cs ∧
      (complete c (flushBuffer t)).addr = some a ∧ (complete c (flushBuffer t)).result = some b ∧
      (complete c (flushBuffer t)).counter = some a ∧ (complete c (flushBuffer t)).buffer = [] ∧
      DoneWith c (complete c (flushBuffer t)) :=
  ⟨h.lines, h.cs, h.addr, h.result, h.counter, rfl, rfl, rfl, rfl⟩

/-- Settles O45: the bytes of the loop, what its last turn leaves, and the draws and the time of its trace. -/
theorem scanReturns256Bytes : Obligations.ScanReturns256Bytes := by
  intro cs s
  have run := exec_scan cs s
  have did := exec_scan_did cs s
  have mask := onlyTheMaskTouchesTheMask (.scan cs) s _ nofun nofun run
  have platform := exec_samePlatform run
  have length : (scannedBytes s).length = 256 := by simp [scannedBytes]
  have last : (scannedBytes s).getLast? = some (answerAt s 510 ++ answerAt s 511) := by
    simp [scannedBytes, List.getLast?_map, List.getLast?_range]
  obtain ⟨u, turned⟩ := scanLoop_turned cs s
  obtain ⟨lines, csKept, addrKept, result, counter, flushed, done⟩ := turned.kept (.bytes (scannedBytes s))
  have time := did.time
  have delays := did.delays
  have delayCount := did.delayCount
  have draws : 25100 + 14343 = 39443 := rfl
  rw [scanTrace_countP_isDwell] at time
  rw [scanTrace_length, scanTrace_countP_isDwell, draws] at delays delayCount
  exact ⟨rfl, _, run, done, length, lines, csKept, addrKept, result.trans last.symm, counter, flushed, time, mask,
    platform, did.answers, did.sampleCount, delays, delayCount⟩

/-- Settles O46: each count of INIT and of the 256 transactions. -/
theorem scanEventCounts : Obligations.ScanEventCounts := by
  intro cs s t es run performed
  rw [exec_scan] at run
  obtain rfl := Host.Outcome.next.inj run
  obtain rfl := performed_unique performed (exec_scan_did cs s).events
  have count (p : Event → Bool) (j k : Nat) :=
    countP_scanTrace p (order := s.config.hookOrder) (d := s.config.tunit) (j := j) (k := k) (cs := cs) (s := s)
  exact ⟨scanTrace_length .., scanTrace_countP_isDwell ..,
    count _ 0 2 rfl fun _ _ _ _ _ => countP_wordTrace .., count _ 1 1 rfl fun _ _ _ _ _ => countP_wordTrace ..,
    count _ 0 1 rfl fun _ _ _ _ _ => countP_wordTrace .., count _ 0 1 rfl fun _ _ _ _ _ => countP_wordTrace ..,
    count _ 0 1 rfl fun _ _ _ _ _ => countP_wordTrace ..⟩

/-- From levels with Clk1 not asserted, the clocks stay apart along the transactions: each leaves Clk1 negated. -/
theorem apart_wordsTrace (order : HookOrder) (d cs m : Nat) (s : State) {ls : OutLines (Option Level)}
    (low : ls.clk1 ≠ some Level.A) (n : Nat) :
    Along ApartAfter m ls (wordsTrace order d cs s n) ∧ (replay (wordsTrace order d cs s n) ls).clk1 ≠ some Level.A := by
  induction n with
  | zero => exact ⟨trivial, low⟩
  | succ n ih =>
    obtain ⟨apart, lowAfter⟩ := ih
    rw [wordsTrace, List.range_succ, List.flatMap_append, List.flatMap_singleton, ← wordsTrace]
    refine ⟨along_append.mpr ⟨apart, apart_wordTrace _ _ _ _ _ _ _ lowAfter _⟩, ?_⟩
    have rest : restLines.clk1 ≠ some Level.A := by decide
    rw [replay, List.foldl_append, ← replay, ← replay, replay_wordTrace]
    exact rest

/-- The clocks are apart along INIT and along the transactions after it. -/
theorem apart_scanTrace (order : HookOrder) (d cs : Nat) (s : State) {ls : OutLines (Option Level)}
    (low : ls.clk1 ≠ some Level.A) : Along ApartAfter 0 ls (scanTrace order d cs s) := by
  have lowAfter : (replay ([syncTo Level.A] ++ plainTrace d) ls).clk1 ≠ some Level.A := by
    simp [replay, plainTrace, applyEvent, outSet]
  rw [scanTrace_eq, along_append]
  exact ⟨apart_initTrace d low 0, (apart_wordsTrace order d cs _ s lowAfter 256).1⟩

/-- Settles O42: in each of the three forms the clocks are apart after every event. -/
theorem clocksNeverOverlap : Obligations.ClocksNeverOverlap := by
  intro i s t before after form low run performed
  have start : ¬ ClocksOverlap s.lines := fun overlap => low overlap.1
  refine apart_of_initial_part start (after := after) ?_
  obtain rfl | ⟨cs, a, rfl⟩ | ⟨cs, rfl⟩ := form
  · obtain ⟨-, u, ran, -, trace, -⟩ := initAssertsSync s
    obtain rfl := Host.Outcome.next.inj (run.symm.trans ran)
    rw [performed_unique performed trace]
    exact apart_initTrace s.config.tunit low 0
  · rw [performed_unique performed (readword_performed run).1]
    exact apart_wordTrace _ _ _ _ _ _ _ low 0
  · rw [exec_scan] at run
    obtain rfl := Host.Outcome.next.inj run
    rw [performed_unique performed (exec_scan_did cs s).events]
    exact apart_scanTrace _ _ cs s low

end Sys2Proof.Machine
end

section
/-! Targets (20_memory.md R41; 70_reset_and_hazards.md R193): what a transaction, a scan and a run return when the samples
are the nibbles of a ROM, and what a scan returns of a stub. -/

namespace Sys2Proof.Machine

open Sys2Proof.Safety

/-- A byte is its two nibbles (30_encoding.md R54). -/
theorem extractLsb'_append (b : Byte) : b.extractLsb' 4 4 ++ b.extractLsb' 0 4 = b := by
  revert b
  decide

/-- Against ideal samples those bytes are the target's, transaction by transaction. -/
theorem wordsBytes_of_idealSamples {rom : Nat → Byte → Byte} {i : Instr} {s : State} (ideal : IdealSamples rom i s) :
    wordsBytes s (transactions i).length = (transactions i).map fun c => rom (c.1 % 8) c.2 := by
  apply List.ext_getElem
  · simp [wordsBytes]
  · intro k inBytes inTransactions
    rw [List.length_map] at inTransactions
    obtain ⟨high, low⟩ := ideal k _ _ (List.getElem?_eq_getElem inTransactions)
    simp only [wordsBytes, List.getElem_map, List.getElem_range]
    rw [high, low, extractLsb'_append]
    rfl

/-- What an operation returns is what its transactions sampled: nothing, for an operation that has none. -/
theorem bytesOf_exec {i : Instr} {s t : State} (run : exec i s = .next t) :
    bytesOf t.completion = wordsBytes s (transactions i).length := by
  cases i with
  | readword cs a =>
    rw [exec_readword] at run
    obtain rfl := Host.Outcome.next.inj run
    rfl
  | scan cs =>
    have count : (transactions (.scan cs)).length = 256 := by simp [transactions]
    rw [exec_scan] at run
    obtain rfl := Host.Outcome.next.inj run
    rw [count, ← scannedBytes_eq]
    rfl
  | readline name =>
    cases name with
    | inp l =>
      obtain rfl := Host.Outcome.next.inj run
      rfl
    | out l => cases run
  | _ => cases answered_of_exec run <;> rfl

theorem bytesOf_exec_of_idealSamples {rom : Nat → Byte → Byte} {i : Instr} {s t : State} (ideal : IdealSamples rom i s)
    (run : exec i s = .next t) : bytesOf t.completion = (transactions i).map fun c => rom (c.1 % 8) c.2 :=
  (bytesOf_exec run).trans (wordsBytes_of_idealSamples ideal)

/-- The target stays ideal along a run. -/
theorem idealSamples_of_idealTarget {rom : Nat → Byte → Byte} {before later : List Instr} {i : Instr} {s t : State}
    (ideal : IdealTarget rom (before ++ i :: later) s) (run : Runs s before t) : IdealSamples rom i t := by
  induction before generalizing s with
  | nil => exact run ▸ ideal.1
  | cons j more ih =>
    obtain ⟨u, ran, rest⟩ := run
    exact ih (ideal.2 u ran) rest

/-! ### The obligations -/

/-- Settles O49: the operation samples an ideal target wherever it stands in the run. -/
theorem runAgainstAnIdealTarget : Obligations.RunAgainstAnIdealTarget := fun _ _ _ _ _ _ _ ideal before run =>
  bytesOf_exec_of_idealSamples (idealSamples_of_idealTarget ideal before) run

/-- Settles O47: the bytes a scan returns are those of its 256 transactions. -/
theorem scanOfAnIdealTarget : Obligations.ScanOfAnIdealTarget := by
  intro rom cs s ideal
  have bytes := bytesOf_exec_of_idealSamples ideal.1 (exec_scan cs s)
  refine ⟨_, exec_scan cs s, congrArg Completion.bytes (bytes.trans ?_)⟩
  simp [transactions]

/-- Settles O48: the byte a transaction returns is that of its one address. -/
theorem readwordOfAnIdealTarget : Obligations.ReadwordOfAnIdealTarget := by
  intro rom cs a s ideal
  have bytes := bytesOf_exec_of_idealSamples ideal.1 (exec_readword cs a s)
  exact ⟨_, exec_readword cs a s, congrArg Completion.byte (List.singleton_inj.mp bytes)⟩

/-- Settles O50: each byte is two samples of the stub's nibble. -/
theorem scanOfAStubTarget : Obligations.ScanOfAStubTarget := by
  intro v cs s stub
  refine ⟨_, exec_scan cs s, congrArg Completion.bytes ?_⟩
  rw [List.eq_replicate_iff]
  refine ⟨by simp [scannedBytes], fun b mem => ?_⟩
  obtain ⟨a, below, rfl⟩ := List.mem_map.mp mem
  rw [List.mem_range] at below
  rw [stub (2 * a) (by omega), stub (2 * a + 1) (by omega)]

end Sys2Proof.Machine
end

section
/-! The block between operations (30_encoding.md R63; 10_state.md R19(b)), and what the input lines decide
(20_memory.md R40): the sampled data alone. -/

namespace Sys2Proof.Machine

open Sys2Proof.Safety

/-! ### The driver's buffer -/

/-- An operation leaves the buffer as it was, but for a scan, which flushes it (10_state.md R19(b)). -/
theorem bodyOf_buffer (i : Instr) (s : State) : (bodyOf i s).buffer = s.buffer ∨ (bodyOf i s).buffer = [] := by
  have phase (j : PhaseIndex) : (runPhase j s).buffer = s.buffer := by
    obtain ⟨⟨-, buffer⟩, -, -⟩ := runSlot_frame [] j s
    rw [runPhase_eq_runSlot, buffer]
  have step {result : Prop} {t : State} (kept : result ∧ SameOperands s t) : t.buffer = s.buffer := by
    obtain ⟨-, -, -, buffer⟩ := kept
    exact buffer
  cases i with
  | setline name v => cases name <;> exact .inl rfl
  | readline name => cases name <;> exact .inl rfl
  | phase0 => exact .inl (phase 0)
  | phase1 => exact .inl (phase 1)
  | phase2 => exact .inl (phase 2)
  | phase3 => exact .inl (phase 3)
  | phase4 => exact .inl (phase 4)
  | phase5 => exact .inl (phase 5)
  | phase6 => exact .inl (phase 6)
  | subcyc hooks =>
    obtain ⟨⟨-, buffer⟩, -⟩ := runSubCycle_frame hooks s
    exact .inl buffer
  | init => exact .inl (step (initStep_kept s))
  | addrlow => exact .inl (step (addrLowStep_kept s))
  | addrhigh => exact .inl (step (addrHighStep_kept s))
  | chipsel => exact .inl (step (chipSelectStep_kept s))
  | datahigh => exact .inl (step (dataHighStep_kept s))
  | datalow => exact .inl (step (dataLowStep_kept s))
  | trail1 => exact .inl (step (trail1Step_kept s))
  | trail2 => exact .inl (step (trail2Step_kept s))
  | trail3 => exact .inl (step (trail3Step_kept s))
  | readword cs a =>
    obtain ⟨-, -, -, buffer⟩ := readWord_kept cs a s
    exact .inl buffer
  | scan cs => exact .inr rfl
  | _ => exact .inl rfl

theorem exec_flushed {i : Instr} {s t : State} (flushed : s.buffer = []) (run : exec i s = .next t) : t.buffer = [] := by
  cases answered_of_exec run with
  | suppressed => exact flushed
  | restored => exact flushed
  | ran => exact (bodyOf_buffer i s).elim (·.trans flushed) id

theorem exec_tokenIssued {i : Instr} {s t : State} (issued : TokenIssued s) (run : exec i s = .next t) :
    TokenIssued t := by
  cases answered_of_exec run with
  | suppressed => exact fun p outstanding => Option.some.inj outstanding ▸ Nat.lt_succ_self _
  | restored => exact nofun
  | ran _ leaves =>
    obtain ⟨suppressed, -, count⟩ := onlyTheMaskTouchesTheMask i s _ leaves.1 leaves.2 run
    rw [TokenIssued, suppressed, count]
    exact issued

/-- Settles O56: a step does nothing or completes an operation, which ends Idle and keeps the buffer flushed. -/
theorem stepKeepsTheBlockSettled : Obligations.StepKeepsTheBlockSettled := by
  intro s t settled issued run
  obtain ⟨-, rfl⟩ | ⟨r, later, i, -, -, ran⟩ := step_cases run
  · exact ⟨settled, issued⟩
  · obtain ⟨kind, stage⟩ := exec_idle ran
    obtain ⟨-, -, flushed⟩ := settled
    have flushed : { s with requests := later }.buffer = [] := flushed
    have issued : TokenIssued { s with requests := later } := issued
    exact ⟨⟨kind, stage, exec_flushed flushed ran⟩, exec_tokenIssued issued ran⟩

/-! ### The state without what the input lines show -/

/-- A result with the sampled values taken out. -/
def blindResult : Completion → Completion
  | .nothing => .nothing
  | .token t => .token t
  | .level _ => .level false
  | .nibble _ => .nibble 0
  | .byte _ => .byte 0
  | .bytes bs => .bytes (bs.map fun _ => 0)

/-- A state with everything taken out that the input lines show and have shown. -/
def blind (s : State) : State :=
  { s with
    answers := [], sampleCount := 0, result := none, buffer := s.buffer.map fun _ => 0
    completion := blindResult s.completion
    log := s.log.map fun st => { st with event := blindEvent st.event } }

theorem blind_buffer (s : State) : (blind s).buffer = s.buffer.map fun _ => 0 := rfl

/-- Two results have the same form exactly when they are the same without the sampled values. -/
theorem sameForm_iff (c c' : Completion) : sameForm c c' ↔ blindResult c' = blindResult c := by
  cases c <;> cases c' <;> simp [sameForm, blindResult]

/-- Two states differ only in what the input lines show exactly when they are the same without it. -/
theorem sameButInputs_iff (s t : State) : SameButInputs s t ↔ blind t = blind s := by
  rw [SameButInputs, sameForm_iff]
  constructor
  · rintro ⟨frame, length, form, log⟩
    have buffer : t.buffer.map (fun _ => (0 : Byte)) = s.buffer.map fun _ => 0 := by simp [length]
    refine (congrArg blind frame).trans ?_
    simp only [blind, buffer, form, log]
  · intro h
    have buffer : t.buffer.map (fun _ => (0 : Byte)) = s.buffer.map fun _ => 0 := (congrArg State.buffer h :)
    refine ⟨?_, by simpa using congrArg List.length buffer, (congrArg State.completion h :), (congrArg State.log h :)⟩
    cases s
    cases t
    simp only [blind, State.mk.injEq] at h ⊢
    tauto

/-! ### Updates that the input lines do not steer -/

/-- States that differ only in what the input lines show are taken to states that differ only so. -/
def Unseen (f : State → State) : Prop := ∀ s s', blind s' = blind s → blind (f s') = blind (f s)

theorem Unseen.comp {f g : State → State} (hf : Unseen f) (hg : Unseen g) : Unseen fun s => f (g s) :=
  fun s s' h => hf _ _ (hg s s' h)

/-- An update is unseen if what the input lines do not decide of its outcome is an update of what they do not decide. -/
theorem Unseen.of_commutes {f g : State → State} (h : ∀ s, blind (f s) = g (blind s)) : Unseen f := by
  intro s s' same
  rw [h, h, same]

theorem setLine_unseen (l : OutLine) (v : Level) : Unseen (setLine l v) := .of_commutes (g := setLine l v) fun _ => rfl

theorem writeNibble_unseen (n : Nibble) : Unseen (writeNibble n) := .of_commutes (g := writeNibble n) fun _ => rfl

theorem readNibble_unseen : Unseen readNibble := .of_commutes (g := emit (.rdNib 0)) fun _ => rfl

theorem readLine_unseen (l : InLine) : Unseen (readLine l) := .of_commutes (g := emit (.rd l false)) fun _ => rfl

theorem wait_unseen (d : Nat) : Unseen (wait d) := .of_commutes (g := wait d) fun _ => rfl

theorem dwell_unseen : Unseen dwell := .of_commutes (g := dwell) fun _ => rfl

theorem enterKind_unseen (k : CycleKind) : Unseen (enterKind k) := .of_commutes (g := enterKind k) fun _ => rfl

theorem enterPhase_unseen (i : PhaseIndex) : Unseen (enterPhase i) := .of_commutes (g := enterPhase i) fun _ => rfl

theorem enterStage_unseen (st : Stage) : Unseen (enterStage st) := .of_commutes (g := enterStage st) fun _ => rfl

theorem goIdle_unseen : Unseen goIdle := .of_commutes (g := goIdle) fun _ => rfl

theorem writeCs_unseen (n : Nat) : Unseen (writeCs n) := .of_commutes (g := writeCs n) fun _ => rfl

theorem writeAddr_unseen (a : Byte) : Unseen (writeAddr a) := .of_commutes (g := writeAddr a) fun _ => rfl

theorem setCounter_unseen (a : Byte) : Unseen (setCounter a) := .of_commutes (g := setCounter a) fun _ => rfl

theorem flushBuffer_unseen : Unseen flushBuffer := .of_commutes (g := flushBuffer) fun _ => rfl

/-- The byte appended to the buffer counts, and not its value. -/
theorem appendResult_unseen : Unseen appendResult :=
  .of_commutes (g := fun s => { s with buffer := s.buffer ++ [0] }) fun s => by simp [blind, appendResult]

theorem complete_unseen {c c' : Completion} {s s' : State} (form : blindResult c' = blindResult c)
    (h : blind s' = blind s) : blind (complete c' s') = blind (complete c s) := by
  have commutes (c : Completion) (s : State) : blind (complete c s) = complete (blindResult c) (blind s) := rfl
  rw [commutes, commutes, form, h]

/-! ### The parts of an operation -/

theorem clockEdge_unseen (i : PhaseIndex) : Unseen (clockEdge i) := by
  have edge (l : OutLine) (v : Level) : Unseen fun s => setLine l v (enterStage .edge s) :=
    (setLine_unseen l v).comp (enterStage_unseen .edge)
  intro s s' h
  unfold clockEdge
  split
  · exact edge _ _ s s' h
  · exact edge _ _ s s' h
  · exact h
  · exact edge _ _ s s' h
  · exact h
  · exact edge _ _ s s' h
  · exact h

theorem sample_unseen (use : SampleUse) : Unseen (sample use) := by
  cases use with
  | discard => exact readNibble_unseen
  | resultHigh => exact readNibble_unseen
  | resultLow => exact readNibble_unseen

theorem updateRegister_unseen (u : RegUpdate) : Unseen (updateRegister u) := by
  cases u with
  | cs n => exact writeCs_unseen n
  | addr a => exact writeAddr_unseen a
  | result b => exact fun _ _ h => h

theorem runAction_unseen (a : HookAction) : Unseen (runAction a) := by
  have hook := enterStage_unseen .hook
  cases a with
  | setLine l v => exact (setLine_unseen l v).comp hook
  | readLine l => exact (readLine_unseen l).comp hook
  | wrNib v => exact (writeNibble_unseen _).comp hook
  | rdNib use => exact (sample_unseen use).comp hook
  | update u => exact updateRegister_unseen u

/-- A list of unseen updates, one after the other. -/
theorem foldl_unseen {α : Type} {f : α → State → State} (h : ∀ a, Unseen (f a)) (as : List α) :
    Unseen fun s => as.foldl (fun t a => f a t) s := by
  induction as with
  | nil => exact fun _ _ same => same
  | cons a later ih => exact fun s s' same => ih _ _ (h a s s' same)

theorem runActions_unseen (as : List HookAction) : Unseen (runActions as) := foldl_unseen runAction_unseen as

theorem hookAndEdge_unseen (hooks : Hooks) (i : PhaseIndex) : Unseen (hookAndEdge hooks i) := by
  intro s s' h
  have config : s'.config = s.config := (congrArg State.config h :)
  unfold hookAndEdge
  rw [config]
  split
  · exact clockEdge_unseen i _ _ (runActions_unseen _ s s' h)
  · exact runActions_unseen _ _ _ (clockEdge_unseen i s s' h)

theorem runSlot_unseen (hooks : Hooks) (i : PhaseIndex) : Unseen (runSlot hooks i) :=
  (dwell_unseen.comp (hookAndEdge_unseen hooks i)).comp (enterPhase_unseen i)

theorem runPhase_unseen (i : PhaseIndex) : Unseen (runPhase i) :=
  (dwell_unseen.comp (clockEdge_unseen i)).comp (enterPhase_unseen i)

theorem runSubCycle_unseen (hooks : Hooks) : Unseen (runSubCycle hooks) := foldl_unseen (runSlot_unseen hooks) phases

theorem entryLine_unseen (l : OutLine) (v : Level) : Unseen (entryLine l v) :=
  (setLine_unseen l v).comp (enterStage_unseen .entry)

theorem entryNibble_unseen (n : Nibble) : Unseen (entryNibble n) :=
  (writeNibble_unseen n).comp (enterStage_unseen .entry)

/-! ### The cycle steps, the transaction and the scan -/

theorem initStep_unseen : Unseen initStep :=
  ((runSubCycle_unseen []).comp (entryLine_unseen .sync Level.A)).comp (enterKind_unseen .init)

/-- The address is no datum of the input lines; unwritten, it reads as one value in both states (log 2). -/
theorem readAddr_of_blind {s s' : State} (h : blind s' = blind s) : readAddr s' = readAddr s :=
  congrArg (·.getD Config.unwrittenAddr) (congrArg State.addr h)

theorem readCs_of_blind {s s' : State} (h : blind s' = blind s) : readCs s' = readCs s :=
  congrArg (·.getD Config.unwrittenCs) (congrArg State.cs h)

theorem addrLowStep_unseen : Unseen addrLowStep := by
  intro s s' h
  unfold addrLowStep
  rw [readAddr_of_blind h]
  exact runSubCycle_unseen [] _ _ (entryNibble_unseen _ _ _ (entryLine_unseen .sync Level.N _ _
    (enterKind_unseen .addrLow s s' h)))

theorem addrHighStep_unseen : Unseen addrHighStep := by
  intro s s' h
  unfold addrHighStep
  rw [readAddr_of_blind h]
  exact runSubCycle_unseen [] _ _ (entryNibble_unseen _ _ _ (enterKind_unseen .addrHigh s s' h))

theorem chipSelectStep_unseen : Unseen chipSelectStep := by
  intro s s' h
  unfold chipSelectStep
  rw [readCs_of_blind h]
  exact runSubCycle_unseen chipSelectHooks _ _ (entryNibble_unseen _ _ _ (enterKind_unseen .chipSelect s s' h))

theorem dataHighStep_unseen : Unseen dataHighStep :=
  (runSubCycle_unseen dataHighHooks).comp (enterKind_unseen .dataHigh)

theorem dataLowStep_unseen : Unseen dataLowStep := (runSubCycle_unseen dataLowHooks).comp (enterKind_unseen .dataLow)

theorem trail1Step_unseen : Unseen trail1Step := (runSubCycle_unseen []).comp (enterKind_unseen .trail1)

theorem trail2Step_unseen : Unseen trail2Step := (runSubCycle_unseen []).comp (enterKind_unseen .trail2)

theorem trail3Step_unseen : Unseen trail3Step :=
  ((runSubCycle_unseen []).comp (entryLine_unseen .sync Level.A)).comp (enterKind_unseen .trail3)

theorem readWord_unseen (cs : Nat) (a : Byte) : Unseen (readWord cs a) := by
  have addressed : Unseen addressing := (chipSelectStep_unseen.comp addrHighStep_unseen).comp addrLowStep_unseen
  have sampled : Unseen sampling := dataLowStep_unseen.comp dataHighStep_unseen
  have trailed : Unseen trailing := (trail3Step_unseen.comp trail2Step_unseen).comp trail1Step_unseen
  have loaded : Unseen fun s => writeAddr a (writeCs cs s) := (writeAddr_unseen a).comp (writeCs_unseen cs)
  exact goIdle_unseen.comp (trailed.comp (sampled.comp (addressed.comp loaded)))

theorem scanWord_unseen (cs : Nat) (a : Byte) : Unseen (scanWord cs a) :=
  (appendResult_unseen.comp (readWord_unseen cs a)).comp (setCounter_unseen a)

theorem scanLoop_unseen (cs : Nat) : Unseen (scanLoop cs) := by
  have started : Unseen scanStart := (goIdle_unseen.comp initStep_unseen).comp flushBuffer_unseen
  have words : Unseen (scanWords cs (List.range 256)) :=
    foldl_unseen (fun a => scanWord_unseen cs (BitVec.ofNat 8 a)) (List.range 256)
  exact words.comp started

/-! ### The operations -/

theorem bodyOf_unseen (i : Instr) : Unseen (bodyOf i) := by
  cases i with
  | waitns d => exact wait_unseen d
  | setline name v =>
    cases name with
    | out l => exact setLine_unseen l v
    | inp l => exact fun _ _ h => h
  | readline name =>
    cases name with
    | inp l => exact readLine_unseen l
    | out l => exact fun _ _ h => h
  | wrnib v => exact writeNibble_unseen _
  | rdnib => exact readNibble_unseen
  | imsuppress => exact fun _ _ h => h
  | imrestore tok => exact fun _ _ h => h
  | phase0 => exact runPhase_unseen 0
  | phase1 => exact runPhase_unseen 1
  | phase2 => exact runPhase_unseen 2
  | phase3 => exact runPhase_unseen 3
  | phase4 => exact runPhase_unseen 4
  | phase5 => exact runPhase_unseen 5
  | phase6 => exact runPhase_unseen 6
  | subcyc hooks => exact runSubCycle_unseen hooks
  | init => exact initStep_unseen
  | addrlow => exact addrLowStep_unseen
  | addrhigh => exact addrHighStep_unseen
  | chipsel => exact chipSelectStep_unseen
  | datahigh => exact dataHighStep_unseen
  | datalow => exact dataLowStep_unseen
  | trail1 => exact trail1Step_unseen
  | trail2 => exact trail2Step_unseen
  | trail3 => exact trail3Step_unseen
  | readword cs a => exact readWord_unseen cs a
  | scan cs => exact flushBuffer_unseen.comp (scanLoop_unseen cs)

/-- The form of a result is the operation's, not the input lines'. -/
theorem blindResult_resultOf (i : Instr) {s s' : State} (h : blind s' = blind s) :
    blindResult (resultOf i s') = blindResult (resultOf i s) := by
  cases i with
  | scan cs =>
    have buffers := congrArg State.buffer (scanLoop_unseen cs s s' h)
    rw [blind_buffer, blind_buffer] at buffers
    simp only [resultOf, blindResult, buffers]
  | readline name => cases name <;> rfl
  | _ => simp only [resultOf, blindResult]

/-- Settles O51: each operation is refused alike in both states, or its body is unseen and its result of one form. -/
theorem answersDecideOnlyTheData : Obligations.AnswersDecideOnlyTheData := by
  intro i s s' same
  have h := (sameButInputs_iff s s').mp same
  have mask : s'.suppressed = s.suppressed := (congrArg State.suppressed h :)
  have issued : s'.tokensIssued = s.tokensIssued := (congrArg State.tokensIssued h :)
  by_cases suppressing : i = .imsuppress
  · subst suppressing
    cases outstanding : s.suppressed with
    | none =>
      rw [exec_imsuppress_eq_next outstanding, exec_imsuppress_eq_next (mask.trans outstanding), issued]
      have unseen : Unseen suppress := .of_commutes (g := suppress) fun _ => rfl
      exact (sameButInputs_iff _ _).mpr (complete_unseen rfl (unseen s s' h))
    | some p =>
      rw [(tokenMisuseRefused s).1 p outstanding, (tokenMisuseRefused s').1 p (mask.trans outstanding)]
  by_cases restoring : ∃ tok, i = .imrestore tok
  · obtain ⟨tok, rfl⟩ := restoring
    by_cases owned : ∃ p, s.suppressed = some p ∧ p.token = tok
    · obtain ⟨p, outstanding, rfl⟩ := owned
      rw [exec_imrestore_eq_next outstanding, exec_imrestore_eq_next (mask.trans outstanding)]
      have unseen : Unseen (restore p.captured) := .of_commutes (g := restore p.captured) fun _ => rfl
      exact (sameButInputs_iff _ _).mpr (complete_unseen rfl (unseen s s' h))
    · have other : ∀ p, s.suppressed = some p → p.token ≠ tok := fun p outstanding e => owned ⟨p, outstanding, e⟩
      rw [exec_imrestore_eq_refused other, exec_imrestore_eq_refused (mask ▸ other)]
  cases defect : i.defect with
  | some d => rw [exec_eq_illFormed defect, exec_eq_illFormed defect]
  | none =>
    have leaves : LeavesMask i := ⟨suppressing, fun tok e => restoring ⟨tok, e⟩⟩
    rw [exec_eq_next defect leaves, exec_eq_next defect leaves]
    exact (sameButInputs_iff _ _).mpr (complete_unseen (blindResult_resultOf i h) (bodyOf_unseen i s s' h))

end Sys2Proof.Machine
end
